-- ==== Sys2Proof/Word.lean ====
section
/-! DEFINITION. The plain types of the decoder: bytes, stripped codes, packed words, characters, channels. -/

namespace Sys2Proof

/-- A raw input byte, bit 7 the parity bit (spec 00_scope.md R4 `RAW_W`). -/
abbrev Byte := BitVec 8

/-- A stripped code, bits 6:0 of a raw byte (R4 `CODE_W`). -/
abbrev Code := BitVec 7

/-- The packed word `W` with raw0 in bits 15:8 and raw1 in bits 7:0 (20_memory.md R38). -/
abbrev Word16 := BitVec 16

/-- One character of the buffer, the ROMs and the output (R4 `CHAR_W`). -/
abbrev CapChar := BitVec 21

/-- The source's `ByteWord`: two stripped codes (00_scope.md R6). -/
structure ByteWord where
  b0 : Code
  b1 : Code
  deriving DecidableEq, Repr

/-- A caption channel, the value of the bits `ACH`, `TCH` and `ch`: 0 is channel 1 and 1 is channel 2
(10_state.md R14, R16). -/
inductive Channel where
  | ch1
  | ch2
  deriving DecidableEq, Repr

end Sys2Proof
end

