-- ==== Sys2Proof/Config.lean ====
section
/-! DEFINITION. The build-time parameters of one decoder (00_scope.md R4): the three tables and the buffer's capacity. -/

namespace Sys2Proof

/-- The parameters a model takes (R4, decisions D8 and D10). Their contents are open, so every statement that
quantifies over states quantifies over them; the spec's default contents stand in Machine/Roms.lean. -/
structure Config where
  /-- `REMAP`: the 9 remapped codes, each with its character (20_memory.md R31, R32). -/
  remap : Vector (Code × CapChar) 9
  /-- `SPECROM`: entry `i` is the character for second code `0x30 + i` (R33). -/
  specRom : Vector CapChar 16
  /-- `EXTROM`: entry `32 * k + j` is the character for basecode `2 + k` and second code `0x20 + j` (R33). -/
  extRom : Vector CapChar 64
  /-- `CBUF_CAP`: none is unbounded (R4, R37). -/
  cbufCap : Option Nat
  deriving DecidableEq, Repr

/-- A Unicode scalar value: at most 0x10FFFF and no surrogate (20_memory.md R36). -/
def isScalar (c : CapChar) : Bool :=
  decide (c.toNat ≤ 0x10FFFF) && !(decide (0xD800 ≤ c.toNat) && decide (c.toNat ≤ 0xDFFF))

/-- The legal values of the parameters: every entry is a Unicode scalar value (20_memory.md R36;
93_implementation_defined.md U12 refuses any other table at configuration), and no code is remapped twice (R32
lists 9 codes). -/
def Config.legal (c : Config) : Bool :=
  c.remap.toList.all (fun p => isScalar p.2)
    && decide (c.remap.toList.map Prod.fst).Nodup
    && c.specRom.toList.all isScalar
    && c.extRom.toList.all isScalar

/-- `CBUF_CAP` has room for `n` characters (R37). -/
def Config.holds (c : Config) (n : Nat) : Bool :=
  match c.cbufCap with
  | none => true
  | some cap => decide (n ≤ cap)

end Sys2Proof
end

