-- ==== Sys2Proof/Machine/Roms.lean ====
section
/-! DEFINITION. The contents of the character tables that the machine has at reset, and the two constant characters.
The contents are the spec's default values of open parameters (20_memory.md R32, R34, R35); the spec has them from
general knowledge (93_implementation_defined.md G1), so they are PRESUMED: assumption log 4. -/

namespace Sys2Proof.Machine

/-- `NL`, the newline U+000A (00_scope.md R4). -/
def newlineChar : CapChar := 0x0A

/-- `SP`, the space U+0020 (R4). -/
def spaceChar : CapChar := 0x20

/-- The default `REMAP` (20_memory.md R32). PRESUMED contents (log 4). -/
def defaultRemap : Vector (Code × CapChar) 9 :=
  #v[(0x2A, 0xE1), (0x5C, 0xE9), (0x5E, 0xED), (0x5F, 0xF3), (0x60, 0xFA),
     (0x7B, 0xE7), (0x7C, 0xF7), (0x7D, 0xD1), (0x7E, 0xF1)]

/-- The default `SPECROM` (20_memory.md R34). PRESUMED contents (log 4). -/
def defaultSpecRom : Vector CapChar 16 :=
  #v[0xAE, 0xB0, 0xBD, 0xBF, 0x2122, 0xA2, 0xA3, 0x266A,
     0xE0, 0x20, 0xE8, 0xE2, 0xEA, 0xEE, 0xF4, 0xFB]

/-- Bank 0 of the default `EXTROM`, basecode 2 (20_memory.md R35). PRESUMED contents (log 4). -/
def defaultExtBank0 : Vector CapChar 32 :=
  #v[0xC1, 0xC9, 0xD3, 0xDA, 0xDC, 0xFC, 0x2018, 0xA1, 0x2A, 0x27, 0x2014, 0xA9, 0x2120, 0x2022, 0x201C, 0x201D,
     0xC0, 0xC2, 0xC7, 0xC8, 0xCA, 0xCB, 0xEB, 0xCE, 0xCF, 0xEF, 0xD4, 0xD9, 0xF9, 0xDB, 0xAB, 0xBB]

/-- Bank 1 of the default `EXTROM`, basecode 3 (20_memory.md R35). PRESUMED contents (log 4). -/
def defaultExtBank1 : Vector CapChar 32 :=
  #v[0xC3, 0xE3, 0xCD, 0xCC, 0xEC, 0xD2, 0xF2, 0xD5, 0xF5, 0x7B, 0x7D, 0x5C, 0x5E, 0x5F, 0x7C, 0x7E,
     0xC4, 0xE4, 0xD6, 0xF6, 0xDF, 0xA5, 0xA4, 0x2502, 0xC5, 0xE5, 0xD8, 0xF8, 0x250C, 0x2510, 0x2514, 0x2518]

/-- The parameters at reset: the spec's default tables and its unbounded buffer (00_scope.md R4; logs 4 and 5). -/
def defaultConfig : Config where
  remap := defaultRemap
  specRom := defaultSpecRom
  extRom := defaultExtBank0 ++ defaultExtBank1
  cbufCap := none

end Sys2Proof.Machine
end

