-- ==== Sys2Proof/Machine/State.lean ====
section
/-! DEFINITION. The machine's state, its reset value, and the reasons a step can stop. Plain data throughout. -/

namespace Sys2Proof.Machine

/-- One emission event `emit(text, nl, flush)` (10_state.md R21). -/
structure Emission where
  text : List CapChar
  nl : Bool
  flush : Bool
  deriving DecidableEq, Repr

/-- One beat of the host's input port: the levels of its pins (10_state.md R20). `tch` is the level of `TCH`. -/
structure Beat where
  rst : Bool
  halt : Bool
  inValid : Bool
  raw0 : Byte
  raw1 : Byte
  tch : Channel
  deriving DecidableEq, Repr

/-- Everything the spec gives the machine. `last`, `ach` and `cbuf` are the architectural state (10_state.md R10); the
rest are the parameters (R25), the host's pins and streams (R20, R21; 20_memory.md R30) and the ghost counter (R17),
held here because a step is a function of State alone. -/
structure State where
  /-- The ROM contents and the buffer's capacity; written by nothing (20_memory.md R36). -/
  cfg : Config
  /-- `LAST`: the previous non-null word after parity stripping, or none, which is `LAST.valid = 0` (10_state.md R11;
  93_implementation_defined.md U3; log 2). -/
  last : Option ByteWord
  /-- `ACH`, the active channel (R14). -/
  ach : Channel
  /-- `CBUF`, the caption buffer, oldest character first (R18). -/
  cbuf : List CapChar
  /-- The level of the `TCH` pin (R16; log 3). -/
  tch : Channel
  /-- What the host presents next, oldest beat first (20_memory.md R30; log 1). -/
  inputs : List Beat
  /-- The run has ended by `halt` and no `rst` has followed (R24; log 6). -/
  halted : Bool
  /-- The ghost counter `n`, words consumed since reset (R17). -/
  consumed : Nat
  /-- The output port in this beat; none is `emit_valid = 0` (R20, R21). -/
  port : Option Emission
  /-- The events the sink has received in this run, in step order (R21; 00_scope.md R8; log 7). -/
  sink : List Emission
  deriving DecidableEq, Repr

/-- The reasons the machine faults: none, because the block raises no exception (60_exceptions.md R120), so no
constructor and nobody to raise one. Safe: no meaning can stop by a fault. -/
inductive Fault where
  deriving DecidableEq, Repr

/-- The reasons a step is given no meaning. -/
inductive Refusal where
  /-- Raised by an arm of exec whose instruction is not modelled yet; no arm raises it. Safe. -/
  | notModelled (mnemonic : String)
  /-- Raised by `setBuffer`: the appends of the step would make `CBUF` longer than a finite `CBUF_CAP`, and "a model
  with a finite `CBUF_CAP` must refuse" such a step (20_memory.md R37; 93_implementation_defined.md U4; log 5). Never
  raised with the unbounded capacity of reset. Safe. -/
  | bufferFull
  /-- Raised by `onBeat`: a word presented after `halt` without `rst`, for which the spec's treatment is `refuse`
  (93_implementation_defined.md U9; log 6). Safe. -/
  | afterHalt
  deriving DecidableEq, Repr

/-- The machine right after reset (10_state.md R23; 70_reset_and_hazards.md R140): `LAST` none, `ACH` channel 1,
`CBUF` empty, no emission, `n = 0`. `TCH` is at its default, channel 1 (R16; log 3); the tables and the capacity are
the spec's default parameters (logs 4, 5); the host has presented nothing (log 1). -/
def State.reset : State where
  cfg := defaultConfig
  last := none
  ach := .ch1
  cbuf := []
  tch := .ch1
  inputs := []
  halted := false
  consumed := 0
  port := none
  sink := []

end Sys2Proof.Machine
end

