-- ==== Sys2Proof/Machine/Flags.lean ====
section
/-! DEFINITION. The one-bit conditions of a step: repeat, acted on, gate open. There is no other flag
(10_state.md R15). -/

namespace Sys2Proof.Machine

/-- `repeat`: the word equals `LAST` as it stood at the start of the step (41_control_dispatch.md R82). -/
def isRepeat (w : ByteWord) (s : State) : Bool := decide (s.last = some w)

/-- A control code is acted on when it is no repeat and its channel is `TCH` (R84). -/
def actedOn (w : ByteWord) (ch : Channel) (s : State) : Bool := !isRepeat w s && decide (ch = s.tch)

/-- The channel gate of displayable pairs (42_displayable.md R101). -/
def gateOpen (s : State) : Bool := decide (s.ach = s.tch)

end Sys2Proof.Machine
end

