-- ==== Sys2Proof/Syntax.lean ====
section
/-! DEFINITION. The instruction set: one constructor per row of spec/opcode_table.json, its operands named as the row
names its fields. The parity bits `p0`, `p1` are no operands: the stripper removes them before anything else sees the
word (40_front_end.md R70; 30_encoding.md R53). -/

namespace Sys2Proof

/-- A decoded word. `x` is bit 4 of the first code, examined by no rule but kept because `LAST` holds it
(30_encoding.md R52); `c` is the channel bit (R51). -/
inductive Instr where
  /-- NUL, the null word (40_front_end.md R73). -/
  | nul
  /-- FLN, flush with newline (41_control_dispatch.md R86). -/
  | fln (x : BitVec 1) (c : Channel)
  /-- FLR, flush without newline, second code 0x25 (R87). -/
  | flr25 (x : BitVec 1) (c : Channel)
  /-- FLR, second code 0x26 (R87). -/
  | flr26 (x : BitVec 1) (c : Channel)
  /-- FLR, second code 0x27 (R87). -/
  | flr27 (x : BitVec 1) (c : Channel)
  /-- FLR, second code 0x2C (R87). -/
  | flr2C (x : BitVec 1) (c : Channel)
  /-- FLR, second code 0x2D (R87). -/
  | flr2D (x : BitVec 1) (c : Channel)
  /-- SPC, special character; `i` is the `SPEC` index (R88). -/
  | spc (x : BitVec 1) (c : Channel) (i : BitVec 4)
  /-- EXT, extended character with overwrite; `s` is the bank and `j` the index in it (R89). -/
  | ext (x : BitVec 1) (c : Channel) (s : BitVec 1) (j : BitVec 5)
  /-- TAB, one space, second code 0x21 (R90). -/
  | tab21 (x : BitVec 1) (c : Channel)
  /-- TAB, two spaces, second code 0x22 (R90). -/
  | tab22 (x : BitVec 1) (c : Channel)
  /-- TAB, three spaces, second code 0x23 (R90). -/
  | tab23 (x : BitVec 1) (c : Channel)
  /-- PAC, preamble address code; `h4` selects indentation and `k` is its step (R91, R92). -/
  | pac (x : BitVec 1) (c : Channel) (bc : BitVec 3) (h5 h4 : BitVec 1) (k : BitVec 3) (u : BitVec 1)
  /-- MID, the catch-all control code (R93). -/
  | mid (x : BitVec 1) (c : Channel) (bc : BitVec 3) (d : BitVec 7)
  /-- CHR1, one displayable character `a` and a filler (42_displayable.md R103). -/
  | chr1 (a : Code) (d : BitVec 5)
  /-- CHR2, two displayable characters (R102). -/
  | chr2 (a b : Code)
  deriving DecidableEq, Repr

/-- The ten word classes (30_encoding.md R58). -/
inductive WordClass where
  | nul | fln | flr | spc | ext | tab | pac | mid | chr2 | chr1
  deriving DecidableEq, Repr

/-- The three kinds the byte-pair classifier tells apart (40_front_end.md R71). -/
inductive WordKind where
  | null | control | displayable
  deriving DecidableEq, Repr

/-- The class of an instruction (R58). -/
def Instr.wordClass : Instr → WordClass
  | .nul => .nul
  | .fln _ _ => .fln
  | .flr25 _ _ => .flr
  | .flr26 _ _ => .flr
  | .flr27 _ _ => .flr
  | .flr2C _ _ => .flr
  | .flr2D _ _ => .flr
  | .spc _ _ _ => .spc
  | .ext _ _ _ _ => .ext
  | .tab21 _ _ => .tab
  | .tab22 _ _ => .tab
  | .tab23 _ _ => .tab
  | .pac _ _ _ _ _ _ _ => .pac
  | .mid _ _ _ _ => .mid
  | .chr1 _ _ => .chr1
  | .chr2 _ _ => .chr2

/-- The kind of a class (R71). -/
def WordClass.kind : WordClass → WordKind
  | .nul => .null
  | .fln => .control
  | .flr => .control
  | .spc => .control
  | .ext => .control
  | .tab => .control
  | .pac => .control
  | .mid => .control
  | .chr2 => .displayable
  | .chr1 => .displayable

/-- The channel a control code is addressed to; the null word and displayable pairs carry none
(41_control_dispatch.md R81; 42_displayable.md R100). -/
def Instr.channel? : Instr → Option Channel
  | .nul => none
  | .fln _ c => some c
  | .flr25 _ c => some c
  | .flr26 _ c => some c
  | .flr27 _ c => some c
  | .flr2C _ c => some c
  | .flr2D _ c => some c
  | .spc _ c _ => some c
  | .ext _ c _ _ => some c
  | .tab21 _ c => some c
  | .tab22 _ c => some c
  | .tab23 _ c => some c
  | .pac _ c _ _ _ _ _ => some c
  | .mid _ c _ _ => some c
  | .chr1 _ _ => none
  | .chr2 _ _ => none

end Sys2Proof
end

