-- ==== Sys2Proof/WellFormed.lean ====
section
/-! DEFINITION. Well-formed instructions: the terms that stand for a word of their own row in first-match order
(30_encoding.md R58, R60). Only the catch-all rows need a check; every operand of the other rows has exactly the
width of its field. -/

namespace Sys2Proof

/-- A MID's second code and basecode hit none of the earlier rows (R58 row 8; R59). -/
def midFree (x : BitVec 1) (c : Channel) (bc : BitVec 3) (d : BitVec 7) : Bool :=
  decide (d < 0x40)
    && !(decide (x = 0) && decide (c = .ch1) && decide (bc = 0) && decide (d = 0))
    && !(decide (bc = 1) && decide (0x30 ≤ d))
    && !((decide (bc = 2) || decide (bc = 3)) && decide (0x20 ≤ d))
    && !(decide (bc = 4) && decide (d ∈ [0x25, 0x26, 0x27, 0x2C, 0x2D, 0x2F]))
    && !(decide (bc = 7) && decide (d ∈ [0x21, 0x22, 0x23]))

/-- The well-formedness check. -/
def Instr.wf : Instr → Bool
  | .nul => true
  | .fln _ _ => true
  | .flr25 _ _ => true
  | .flr26 _ _ => true
  | .flr27 _ _ => true
  | .flr2C _ _ => true
  | .flr2D _ _ => true
  | .spc _ _ _ => true
  | .ext _ _ _ _ => true
  | .tab21 _ _ => true
  | .tab22 _ _ => true
  | .tab23 _ _ => true
  | .pac _ _ _ _ _ _ _ => true
  | .mid x c bc d => midFree x c bc d
  | .chr1 a _ => decide (0x20 ≤ a)
  | .chr2 a b => decide (0x20 ≤ a) && decide (0x20 ≤ b)

end Sys2Proof
end

