-- ==== Sys2Proof/Decode.lean ====
section
/-! DEFINITION. The parity stripper, the decoder, the encoder, and the opcode table in machine form.
Every word decodes (30_encoding.md R62); the one thing rejected is a half word (60_exceptions.md R125). -/

namespace Sys2Proof

/-- The parity stripper: clears bit 7 by keeping bits 6:0 (40_front_end.md R70). -/
def stripParity (r : Byte) : Code := r.extractLsb' 0 7

/-- The stripped pair of a word (R70). -/
def stripPair (raw0 raw1 : Byte) : ByteWord := ⟨stripParity raw0, stripParity raw1⟩

/-- The one-bit coding of a channel (10_state.md R14). -/
def channelOfBit (b : BitVec 1) : Channel := if b = 1 then .ch2 else .ch1

/-- The bit of a channel (R14). -/
def channelBit : Channel → BitVec 1
  | .ch1 => 0
  | .ch2 => 1

/-- `x`, bit 4 of the first code (30_encoding.md R51, R52). -/
def codeX (b0 : Code) : BitVec 1 := b0.extractLsb' 4 1

/-- Channel derivation `ch = b0[3]` (41_control_dispatch.md R81). -/
def codeChannel (b0 : Code) : Channel := channelOfBit (b0.extractLsb' 3 1)

/-- The basecode `b0 & 0x7` (30_encoding.md R56). -/
def codeBase (b0 : Code) : BitVec 3 := b0.extractLsb' 0 3

/-- The byte-pair classifier (40_front_end.md R71). -/
def classify (w : ByteWord) : WordKind :=
  if w.b0 = 0 ∧ w.b1 = 0 then .null
  else if w.b0 < 0x20 then .control
  else .displayable

/-- The control-code rows, first match first (30_encoding.md R58 rows 2 to 8). -/
def decodeControl (w : ByteWord) : Instr :=
  let x := codeX w.b0
  let c := codeChannel w.b0
  let bc := codeBase w.b0
  if bc = 4 ∧ w.b1 = 0x2F then .fln x c
  else if bc = 4 ∧ w.b1 = 0x25 then .flr25 x c
  else if bc = 4 ∧ w.b1 = 0x26 then .flr26 x c
  else if bc = 4 ∧ w.b1 = 0x27 then .flr27 x c
  else if bc = 4 ∧ w.b1 = 0x2C then .flr2C x c
  else if bc = 4 ∧ w.b1 = 0x2D then .flr2D x c
  else if bc = 1 ∧ 0x30 ≤ w.b1 ∧ w.b1 < 0x40 then .spc x c (w.b1.extractLsb' 0 4)
  else if (bc = 2 ∨ bc = 3) ∧ 0x20 ≤ w.b1 ∧ w.b1 < 0x40 then
    .ext x c (w.b0.extractLsb' 0 1) (w.b1.extractLsb' 0 5)
  else if bc = 7 ∧ w.b1 = 0x21 then .tab21 x c
  else if bc = 7 ∧ w.b1 = 0x22 then .tab22 x c
  else if bc = 7 ∧ w.b1 = 0x23 then .tab23 x c
  else if 0x40 ≤ w.b1 then
    .pac x c bc (w.b1.extractLsb' 5 1) (w.b1.extractLsb' 4 1) (w.b1.extractLsb' 1 3) (w.b1.extractLsb' 0 1)
  else .mid x c bc w.b1

/-- The displayable rows (R58 rows 9 and 10). -/
def decodeDisplayable (w : ByteWord) : Instr :=
  if 0x20 ≤ w.b1 then .chr2 w.b0 w.b1 else .chr1 w.b0 (w.b1.extractLsb' 0 5)

/-- The instruction of a stripped pair: the class is a function of `b0` and `b1` alone (R58). -/
def decodeCodes (w : ByteWord) : Instr :=
  match classify w with
  | .null => .nul
  | .control => decodeControl w
  | .displayable => decodeDisplayable w

/-- The instruction of two raw bytes (40_front_end.md R70, R71). -/
def decodePair (raw0 raw1 : Byte) : Instr := decodeCodes (stripPair raw0 raw1)

/-- First byte of a packed word (20_memory.md R38). -/
def wordRaw0 (w : Word16) : Byte := w.extractLsb' 8 8

/-- Second byte of a packed word (R38). -/
def wordRaw1 (w : Word16) : Byte := w.extractLsb' 0 8

/-- The instruction of a packed word. -/
def decodeWord (w : Word16) : Instr := decodePair (wordRaw0 w) (wordRaw1 w)

/-- Why bytes give no instruction. -/
inductive DecodeError where
  /-- Fewer than two bytes: the end of the stream, never a word (60_exceptions.md R125; 20_memory.md R39). -/
  | halfWord
  deriving DecidableEq, Repr

/-- The decoder over a byte stream: the next instruction and the bytes after it (R39). -/
def decode : List Byte → Except DecodeError (Instr × List Byte)
  | raw0 :: raw1 :: rest => .ok (decodePair raw0 raw1, rest)
  | [_] => .error .halfWord
  | [] => .error .halfWord

/-- A control code's first code: `00`, `x`, `c`, `bc` from the top (30_encoding.md R51). -/
def controlCode (x : BitVec 1) (c : Channel) (bc : BitVec 3) : Code := 0#2 ++ x ++ channelBit c ++ bc

/-- The stripped pair an instruction stands for, assembled from the field layout of R51. -/
def codes : Instr → ByteWord
  | .nul => ⟨0, 0⟩
  | .fln x c => ⟨controlCode x c 4, 0x2F⟩
  | .flr25 x c => ⟨controlCode x c 4, 0x25⟩
  | .flr26 x c => ⟨controlCode x c 4, 0x26⟩
  | .flr27 x c => ⟨controlCode x c 4, 0x27⟩
  | .flr2C x c => ⟨controlCode x c 4, 0x2C⟩
  | .flr2D x c => ⟨controlCode x c 4, 0x2D⟩
  | .spc x c i => ⟨controlCode x c 1, 3#3 ++ i⟩
  | .ext x c s j => ⟨controlCode x c (1#2 ++ s), 1#2 ++ j⟩
  | .tab21 x c => ⟨controlCode x c 7, 0x21⟩
  | .tab22 x c => ⟨controlCode x c 7, 0x22⟩
  | .tab23 x c => ⟨controlCode x c 7, 0x23⟩
  | .pac x c bc h5 h4 k u => ⟨controlCode x c bc, 1#1 ++ h5 ++ h4 ++ k ++ u⟩
  | .mid x c bc d => ⟨controlCode x c bc, d⟩
  | .chr1 a d => ⟨a, 0#2 ++ d⟩
  | .chr2 a b => ⟨a, b⟩

/-- The packed word of an instruction with given parity bits (R51: `p0`, `b0`, `p1`, `b1` from the top). -/
def encodeWith (p0 p1 : BitVec 1) (i : Instr) : Word16 := p0 ++ (codes i).b0 ++ p1 ++ (codes i).b1

/-- The packed word of an instruction, parity bits clear. -/
def encode (i : Instr) : Word16 := encodeWith 0 0 i

/-- A row of the opcode table in machine form (30_encoding.md R60). -/
structure OpRow where
  wordClass : WordClass
  mask : Word16
  value : Word16
  deriving DecidableEq, Repr

/-- The sixteen rows in matching order (R60). The decoder above follows R58; this table is the spec's second form of
the same map. -/
def opcodeRows : List OpRow :=
  [ ⟨.nul, 0x7F7F, 0x0000⟩, ⟨.fln, 0x677F, 0x042F⟩,
    ⟨.flr, 0x677F, 0x0425⟩, ⟨.flr, 0x677F, 0x0426⟩, ⟨.flr, 0x677F, 0x0427⟩, ⟨.flr, 0x677F, 0x042C⟩,
    ⟨.flr, 0x677F, 0x042D⟩, ⟨.spc, 0x6770, 0x0130⟩, ⟨.ext, 0x6660, 0x0220⟩,
    ⟨.tab, 0x677F, 0x0721⟩, ⟨.tab, 0x677F, 0x0722⟩, ⟨.tab, 0x677F, 0x0723⟩,
    ⟨.pac, 0x6040, 0x0040⟩, ⟨.mid, 0x6000, 0x0000⟩, ⟨.chr1, 0x0060, 0x0000⟩, ⟨.chr2, 0x0000, 0x0000⟩ ]

/-- The class of the first row that matches (R60). -/
def tableClass (w : Word16) : Option WordClass :=
  (opcodeRows.find? (fun r => w &&& r.mask == r.value)).map OpRow.wordClass

/-- The table numbers a word as `W`: the low `nbits` bits count, the rest are clear. -/
def tableWord (nbits w : Nat) : Word16 := BitVec.ofNat 16 (w % 2 ^ nbits)

/-- What the decoder reads from a word numbered as opcode_table.json numbers it: one 16-bit word, laid out with its
bits 15:8 first in the stream (20_memory.md R38). No word is longer than 16 bits (30_encoding.md R50). -/
def decodeTableWord (nbits w : Nat) : Option Instr :=
  if nbits ≤ 16 then
    match decode [wordRaw0 (tableWord nbits w), wordRaw1 (tableWord nbits w)] with
    | .ok (i, _) => some i
    | .error _ => none
  else none

end Sys2Proof
end

