-- ==== Sys2Proof/Machine/Operands.lean ====
section
/-! DEFINITION. The operand forms: the indexes and counts computed from a word's bits (30_encoding.md R56), the ROM
reads (20_memory.md R31, R33) and the character-map multiplexer (43_charmap_mux.md R110). -/

namespace Sys2Proof.Machine

/-- `RomRead(BASIC, c)`: the remapped character of `c`, or the code point of the same number (20_memory.md R31). -/
def readBasic (cfg : Config) (c : Code) : CapChar :=
  match cfg.remap.toList.find? (fun p => decide (p.1 = c)) with
  | some p => p.2
  | none => c.setWidth 21

/-- `RomRead(SPEC, i)`; a 4-bit index cannot leave the 16 entries (R33). -/
def readSpec (cfg : Config) (i : BitVec 4) : CapChar := cfg.specRom.get i.toFin

/-- `RomRead(EXT, i)`; a 6-bit index cannot leave the 64 entries (R33). -/
def readExt (cfg : Config) (i : BitVec 6) : CapChar := cfg.extRom.get i.toFin

/-- What the multiplexer selects: a ROM with its index, or one of the two constants (43_charmap_mux.md R110). -/
inductive CharSel where
  | basic (c : Code)
  | spec (i : BitVec 4)
  | ext (i : BitVec 6)
  | space
  | newline
  deriving DecidableEq, Repr

/-- `charmux(sel, idx)`: the one place where a character's source is decided (R110). -/
def charmux (cfg : Config) : CharSel → CapChar
  | .basic c => readBasic cfg c
  | .spec i => readSpec cfg i
  | .ext i => readExt cfg i
  | .space => spaceChar
  | .newline => newlineChar

/-- The `EXT` index `{b0[0], b1[4:0]}` (20_memory.md R33). -/
def extIndex (s : BitVec 1) (j : BitVec 5) : BitVec 6 := s ++ j

/-- `tab_n`, the source's `b1 - 0x20` (30_encoding.md R56). -/
def tabCount (b1 : Code) : Nat := b1.toNat - 0x20

/-- `pre_spaces(b1)` by the source's nibbles (41_control_dispatch.md R92). -/
def preSpaces (b1 : Code) : Nat :=
  if b1 &&& 0x70 = 0x50 ∨ b1 &&& 0x70 = 0x70 then ((b1 &&& 0x0F).toNat / 2) * 4 else 0

end Sys2Proof.Machine
end

