-- ==== Sys2Proof/Machine/Ops.lean ====
section
/-! DEFINITION. The named operations every meaning is written over: the buffer primitives (00_scope.md R5), the
emission, and the control-code and displayable-pair paths. The block takes no exception and has no return from one
(60_exceptions.md R120, R128, R129), so no operation does either. -/

namespace Sys2Proof.Machine

/-- What a step of this machine answers. -/
abbrev StepResult := Host.Outcome State Fault Refusal

/-- `CBUF.append(c)` (00_scope.md R5). -/
def append (c : CapChar) (buf : List CapChar) : List CapChar := buf ++ [c]

/-- `CBUF.append_n(c, n)` (R5). -/
def appendN (c : CapChar) (n : Nat) (buf : List CapChar) : List CapChar := buf ++ List.replicate n c

/-- `CBUF.droplast()`, which does nothing to an empty buffer (R5; 41_control_dispatch.md R89 corner case b). -/
def droplast (buf : List CapChar) : List CapChar := buf.dropLast

/-- Puts the buffer a step's appends made in place, or refuses the step if a finite `CBUF_CAP` has no room for it
(20_memory.md R37). -/
def setBuffer (buf : List CapChar) (s : State) : StepResult :=
  if s.cfg.holds buf.length then .next { s with cbuf := buf } else .refused .bufferFull

/-- `emit(text, nl, flush)` of the whole buffer: the port shows the event and the sink receives it (10_state.md R21). -/
def emit (nl flush : Bool) (s : State) : State :=
  { s with port := some ⟨s.cbuf, nl, flush⟩, sink := s.sink ++ [⟨s.cbuf, nl, flush⟩] }

/-- `CBUF.clear()` (00_scope.md R5). -/
def clearBuffer (s : State) : State := { s with cbuf := [] }

/-- A flush: emit the whole buffer, then clear it (41_control_dispatch.md R86, R87). -/
def flushBuffer (nl flush : Bool) (s : State) : StepResult := .next (clearBuffer (emit nl flush s))

/-- Stage 2 of the control-code path: `ACH <- ch` and `LAST <- (1, b0, b1)`, whatever happens next (R80). -/
def noteControl (w : ByteWord) (ch : Channel) (s : State) : State := { s with ach := ch, last := some w }

/-- The control-code path (R80): note the code, then perform its action if it is acted on. -/
def controlStep (w : ByteWord) (ch : Channel) (action : State → StepResult) (s : State) : StepResult :=
  if actedOn w ch s then action (noteControl w ch s) else .next (noteControl w ch s)

/-- The displayable path (42_displayable.md R100): `LAST` is written and `ACH` is not; the characters of the codes are
appended in order if the gate is open. -/
def displayStep (w : ByteWord) (shown : List Code) (s : State) : StepResult :=
  if gateOpen s then
    setBuffer (s.cbuf ++ shown.map (fun c => charmux s.cfg (.basic c))) { s with last := some w }
  else .next { s with last := some w }

/-- Reset puts the state in its reset values and a new run begins (70_reset_and_hazards.md R140, R142). The
parameters, the `TCH` pin and the host's coming beats are no state of the block and stay (10_state.md R23; log 7). -/
def restart (s : State) : State :=
  { s with last := none, ach := .ch1, cbuf := [], halted := false, consumed := 0, port := none, sink := [] }

/-- The end of the run: no emission, and the residue stays where the sink never sees it (60_exceptions.md R124). -/
def endRun (s : State) : State := { s with halted := true }

/-- The sink character stream `OUT` of a run (10_state.md R21). -/
def sinkChars (events : List Emission) : List CapChar :=
  events.flatMap (fun e => e.text ++ (if e.nl then [newlineChar] else []))

end Sys2Proof.Machine
end

