-- ==== Sys2Proof/Machine/Display.lean ====
section
/-! DEFINITION. The meanings of the displayable pairs CHR2 and CHR1 (42_displayable.md R102, R103). -/

namespace Sys2Proof.Machine

/-- CHR1: the character of `a`; the filler is not appended (R103). -/
def execChr1 (a : Code) (d : BitVec 5) (s : State) : StepResult :=
  displayStep (codes (.chr1 a d)) [a] s

/-- CHR2: the character of `a`, then that of `b` (R102). -/
def execChr2 (a b : Code) (s : State) : StepResult :=
  displayStep (codes (.chr2 a b)) [a, b] s

end Sys2Proof.Machine
end

