-- ==== Sys2Proof/Machine/Flush.lean ====
section
/-! DEFINITION. The meanings of FLN and of the five FLR rows (41_control_dispatch.md R86, R87). -/

namespace Sys2Proof.Machine

/-- FLN (R86). -/
def execFln (x : BitVec 1) (c : Channel) (s : State) : StepResult :=
  controlStep (codes (.fln x c)) c (flushBuffer true false) s

/-- FLR 0x25 (R87). -/
def execFlr25 (x : BitVec 1) (c : Channel) (s : State) : StepResult :=
  controlStep (codes (.flr25 x c)) c (flushBuffer false true) s

/-- FLR 0x26 (R87). -/
def execFlr26 (x : BitVec 1) (c : Channel) (s : State) : StepResult :=
  controlStep (codes (.flr26 x c)) c (flushBuffer false true) s

/-- FLR 0x27 (R87). -/
def execFlr27 (x : BitVec 1) (c : Channel) (s : State) : StepResult :=
  controlStep (codes (.flr27 x c)) c (flushBuffer false true) s

/-- FLR 0x2C (R87). -/
def execFlr2C (x : BitVec 1) (c : Channel) (s : State) : StepResult :=
  controlStep (codes (.flr2C x c)) c (flushBuffer false true) s

/-- FLR 0x2D (R87). -/
def execFlr2D (x : BitVec 1) (c : Channel) (s : State) : StepResult :=
  controlStep (codes (.flr2D x c)) c (flushBuffer false true) s

end Sys2Proof.Machine
end

