-- ==== Sys2Proof/Machine/Null.lean ====
section
/-! DEFINITION. The meaning of NUL (40_front_end.md R73). -/

namespace Sys2Proof.Machine

/-- NUL: "no state change, no output" (R73). -/
def execNul (s : State) : StepResult := .next s

end Sys2Proof.Machine
end

