-- ==== Sys2Proof/Machine/Text.lean ====
section
/-! DEFINITION. The meanings of the control codes that put text into the buffer: SPC, EXT, TAB, PAC, MID
(41_control_dispatch.md R88 to R93). -/

namespace Sys2Proof.Machine

/-- SPC: append one special character (R88). -/
def execSpc (x : BitVec 1) (c : Channel) (i : BitVec 4) (s : State) : StepResult :=
  controlStep (codes (.spc x c i)) c (fun t => setBuffer (append (charmux t.cfg (.spec i)) t.cbuf) t) s

/-- EXT: drop the last character, then append one extended character (R89). -/
def execExt (x : BitVec 1) (c : Channel) (b : BitVec 1) (j : BitVec 5) (s : State) : StepResult :=
  controlStep (codes (.ext x c b j)) c
    (fun t => setBuffer (append (charmux t.cfg (.ext (extIndex b j))) (droplast t.cbuf)) t) s

/-- The action of a TAB with second code `b1` (R90). -/
def tabAction (b1 : Code) (t : State) : StepResult :=
  setBuffer (appendN (charmux t.cfg .space) (tabCount b1) t.cbuf) t

/-- TAB 0x21, one space (R90). -/
def execTab21 (x : BitVec 1) (c : Channel) (s : State) : StepResult :=
  controlStep (codes (.tab21 x c)) c (tabAction (codes (.tab21 x c)).b1) s

/-- TAB 0x22, two spaces (R90). -/
def execTab22 (x : BitVec 1) (c : Channel) (s : State) : StepResult :=
  controlStep (codes (.tab22 x c)) c (tabAction (codes (.tab22 x c)).b1) s

/-- TAB 0x23, three spaces (R90). -/
def execTab23 (x : BitVec 1) (c : Channel) (s : State) : StepResult :=
  controlStep (codes (.tab23 x c)) c (tabAction (codes (.tab23 x c)).b1) s

/-- PAC: append a newline and the indentation's spaces (R91). -/
def execPac (x : BitVec 1) (c : Channel) (bc : BitVec 3) (h5 h4 : BitVec 1) (k : BitVec 3) (u : BitVec 1)
    (s : State) : StepResult :=
  controlStep (codes (.pac x c bc h5 h4 k u)) c
    (fun t => setBuffer
      (appendN (charmux t.cfg .space) (preSpaces (codes (.pac x c bc h5 h4 k u)).b1)
        (append (charmux t.cfg .newline) t.cbuf)) t) s

/-- MID: append a single space (R93). -/
def execMid (x : BitVec 1) (c : Channel) (bc : BitVec 3) (d : BitVec 7) (s : State) : StepResult :=
  controlStep (codes (.mid x c bc d)) c (fun t => setBuffer (append (charmux t.cfg .space) t.cbuf) t) s

end Sys2Proof.Machine
end

