-- ==== Sys2Proof/Machine/Dispatch.lean ====
section
/-! DEFINITION. The dispatch: one arm per constructor of Instr, each one call of its meaning. -/

namespace Sys2Proof.Machine

/-- The meaning of an instruction in a state (40_front_end.md R72). -/
def exec (i : Instr) (s : State) : Host.Outcome State Fault Refusal :=
  match i with
  | .nul => Sys2Proof.Machine.execNul s
  | .fln x c => Sys2Proof.Machine.execFln x c s
  | .flr25 x c => Sys2Proof.Machine.execFlr25 x c s
  | .flr26 x c => Sys2Proof.Machine.execFlr26 x c s
  | .flr27 x c => Sys2Proof.Machine.execFlr27 x c s
  | .flr2C x c => Sys2Proof.Machine.execFlr2C x c s
  | .flr2D x c => Sys2Proof.Machine.execFlr2D x c s
  | .spc x c i4 => Sys2Proof.Machine.execSpc x c i4 s
  | .ext x c b j => Sys2Proof.Machine.execExt x c b j s
  | .tab21 x c => Sys2Proof.Machine.execTab21 x c s
  | .tab22 x c => Sys2Proof.Machine.execTab22 x c s
  | .tab23 x c => Sys2Proof.Machine.execTab23 x c s
  | .pac x c bc h5 h4 k u => Sys2Proof.Machine.execPac x c bc h5 h4 k u s
  | .mid x c bc d => Sys2Proof.Machine.execMid x c bc d s
  | .chr1 a d => Sys2Proof.Machine.execChr1 a d s
  | .chr2 a b => Sys2Proof.Machine.execChr2 a b s

end Sys2Proof.Machine
end

