-- ==== Sys2Proof/Machine/Stream.lean ====
section
/-! DEFINITION. One beat of the host's input port, a sequence of beats, the machine's queue of coming beats, and the
host's presentation of a byte stream. -/

namespace Sys2Proof.Machine

/-- The start of every beat: the `TCH` pin takes its level and the output port is idle unless this beat emits
(10_state.md R16, R20). -/
def latchPins (b : Beat) (s : State) : State := { s with tch := b.tch, port := none }

/-- One word is consumed: the ghost counter counts it and its instruction runs (R17; 40_front_end.md R72). -/
def consumeWord (raw0 raw1 : Byte) (s : State) : StepResult :=
  exec (decodePair raw0 raw1) { s with consumed := s.consumed + 1 }

/-- What a beat does. `halt` is looked at between steps and a word presented with it is not consumed
(60_exceptions.md R127); after it only `rst` makes the block usable again (R129), and a word presented without one is
refused (93_implementation_defined.md U9; log 6); with no word presented the state is held (R136). `rst` before all
else is a DESIGN CHOICE (log 9). -/
def onBeat (b : Beat) (s : State) : StepResult :=
  if b.rst then .next (restart (latchPins b s))
  else if b.halt then .next (endRun (latchPins b s))
  else if b.inValid then
    if s.halted then .refused .afterHalt else consumeWord b.raw0 b.raw1 (latchPins b s)
  else .next (latchPins b s)

/-- Beats one after the other, each complete before the next begins (20_memory.md R43). -/
def feed : List Beat → State → StepResult
  | [], s => .next s
  | b :: bs, s =>
    match onBeat b s with
    | .next t => feed bs t
    | .fault r => .fault r
    | .refused r => .refused r

/-- The next beat of the host is taken off the queue and happens; when the host presents nothing the block waits and
holds its state with the port idle (60_exceptions.md R136; log 10). -/
def takeBeat (s : State) : StepResult :=
  match s.inputs with
  | [] => .next { s with port := none }
  | b :: rest => onBeat b { s with inputs := rest }

/-- A beat that presents one word (10_state.md R20). -/
def wordBeat (raw0 raw1 : Byte) (tch : Channel) : Beat := ⟨false, false, true, raw0, raw1, tch⟩

/-- A beat that ends the run. -/
def haltBeat (tch : Channel) : Beat := ⟨false, true, false, 0, 0, tch⟩

/-- A beat that resets the block. -/
def resetBeat (tch : Channel) : Beat := ⟨true, false, false, 0, 0, tch⟩

/-- The host's presentation of a byte stream: the pairs at offsets `2n`, `2n+1` in order, then `halt` when fewer than
two bytes remain; an odd last byte is never presented (20_memory.md R39; 60_exceptions.md R125; 70_reset_and_hazards.md
R143). No idle beat and a single `halt` are a DESIGN CHOICE (log 1). -/
def streamBeats (tch : Channel) : List Byte → List Beat
  | raw0 :: raw1 :: rest => wordBeat raw0 raw1 tch :: streamBeats tch rest
  | [_] => [haltBeat tch]
  | [] => [haltBeat tch]

/-- The host presents one more word at once, to a block that is running (log 11). -/
def presentWord (raw0 raw1 : Byte) (s : State) : State :=
  { s with inputs := wordBeat raw0 raw1 s.tch :: s.inputs, halted := false }

end Sys2Proof.Machine
end

