-- ==== Sys2Proof/Machine/Step.lean ====
section
/-! DEFINITION. The machine's step and the placing of a word where it fetches its next instruction. -/

namespace Sys2Proof.Machine

/-- One step of the machine: the host's next beat. -/
def step (s : State) : Host.Outcome State Fault Refusal := takeBeat s

/-- The state in which the very next step consumes the word that the table numbers `w` (log 11). -/
def State.withFetchWord (s : State) (nbits w : Nat) : State :=
  presentWord (wordRaw0 (tableWord nbits w)) (wordRaw1 (tableWord nbits w)) s

end Sys2Proof.Machine
end

