-- ==== Sys2Proof/Reference.lean ====
section
/-! DEFINITION. The spec's own pseudocode of the whole step (40_front_end.md R72), line by line on natural numbers,
with no decoder, no instruction type and none of the machine's operations: what the machine is compared with. -/

namespace Sys2Proof.Reference

open Sys2Proof.Machine (Emission State)

/-- The three pieces of architectural state as plain numbers (10_state.md R10). -/
structure Arch where
  last : Option (Nat × Nat)
  ach : Nat
  cbuf : List CapChar
  deriving DecidableEq, Repr

/-- The number of a channel's bit (10_state.md R14). -/
def channelNumber : Channel → Nat
  | .ch1 => 0
  | .ch2 => 1

/-- The architectural state of the machine. -/
def archOf (s : State) : Arch where
  last := s.last.map (fun w => (w.b0.toNat, w.b1.toNat))
  ach := channelNumber s.ach
  cbuf := s.cbuf

/-- `RomRead` of a 16- or 64-entry ROM at a number. -/
def romEntry (rom : List CapChar) (i : Nat) : CapChar := rom[i]?.getD 0

/-- `RomRead(BASIC, c)` at a number (20_memory.md R31). -/
def basicEntry (cfg : Config) (c : Nat) : CapChar :=
  ((cfg.remap.toList.find? (fun p => p.1.toNat == c)).map Prod.snd).getD (BitVec.ofNat 21 c)

/-- `pre_spaces` of the pseudocode. -/
def indent (b1 : Nat) : Nat :=
  if b1 / 16 % 8 = 5 ∨ b1 / 16 % 8 = 7 then (b1 % 16) / 2 * 4 else 0

/-- `step(raw0, raw1; TCH)` of R72: the new state and the emission, if any. -/
def refStep (cfg : Config) (tch raw0 raw1 : Nat) (s : Arch) : Arch × Option Emission :=
  let b0 := raw0 % 128
  let b1 := raw1 % 128
  if b0 = 0 ∧ b1 = 0 then (s, none)
  else if b0 < 0x20 then
    let ch := b0 / 8 % 2
    let noted : Arch := ⟨some (b0, b1), ch, s.cbuf⟩
    if s.last = some (b0, b1) ∨ ch ≠ tch then (noted, none)
    else
      let bc := b0 % 8
      if bc = 4 ∧ b1 = 0x2F then ({ noted with cbuf := [] }, some ⟨s.cbuf, true, false⟩)
      else if bc = 4 ∧ (b1 = 0x2D ∨ b1 = 0x25 ∨ b1 = 0x26 ∨ b1 = 0x27 ∨ b1 = 0x2C) then
        ({ noted with cbuf := [] }, some ⟨s.cbuf, false, true⟩)
      else if bc = 1 ∧ 0x30 ≤ b1 ∧ b1 < 0x40 then
        ({ noted with cbuf := s.cbuf ++ [romEntry cfg.specRom.toList (b1 - 0x30)] }, none)
      else if (bc = 2 ∨ bc = 3) ∧ 0x20 ≤ b1 ∧ b1 < 0x40 then
        ({ noted with
            cbuf := s.cbuf.take (s.cbuf.length - 1)
              ++ [romEntry cfg.extRom.toList ((bc - 2) * 0x20 + (b1 - 0x20))] }, none)
      else if bc = 7 ∧ (b1 = 0x21 ∨ b1 = 0x22 ∨ b1 = 0x23) then
        ({ noted with cbuf := s.cbuf ++ List.replicate (b1 - 0x20) 0x20 }, none)
      else if b1 ≥ 0x40 then
        ({ noted with cbuf := s.cbuf ++ [0x0A] ++ List.replicate (indent b1) 0x20 }, none)
      else ({ noted with cbuf := s.cbuf ++ [0x20] }, none)
  else
    let shown : List CapChar :=
      if s.ach = tch then
        basicEntry cfg b0 :: (if b1 ≥ 0x20 then [basicEntry cfg b1] else [])
      else []
    (⟨some (b0, b1), s.ach, s.cbuf ++ shown⟩, none)

end Sys2Proof.Reference
end

