-- ==== Sys2Proof/Safety.lean ====
section
/-! DEFINITION. What counts as a sound state and a safe run, in the terms claims use. -/

namespace Sys2Proof.Machine

/-- The invariant of the machine: what holds at reset and what every step keeps. -/
structure State.Inv (s : State) : Prop where
  /-- The tables are legal parameters (20_memory.md R36). -/
  legal : s.cfg.legal = true
  /-- The buffer is within its capacity (R37). -/
  fits : s.cfg.holds s.cbuf.length = true
  /-- Every buffered character is a Unicode scalar value (10_state.md R18). -/
  cbufScalar : ∀ c ∈ s.cbuf, isScalar c = true
  /-- Every emitted character is a Unicode scalar value. -/
  sinkScalar : ∀ e ∈ s.sink, ∀ c ∈ e.text, isScalar c = true
  /-- Every event asks for a newline or for a flush and never for both (R21). -/
  sinkKinds : ∀ e ∈ s.sink, e.flush = !e.nl
  /-- What the port shows is the newest event of the sink (R21). -/
  portInSink : ∀ e, s.port = some e → s.sink.getLast? = some e
  /-- `LAST` is never the null word (R12). -/
  lastNotNull : s.last ≠ some ⟨0, 0⟩
  /-- If the previous non-null word was a control code, `ACH` is its channel (41_control_dispatch.md R94 item 5). -/
  achOfLast : ∀ w, s.last = some w → classify w = .control → s.ach = codeChannel w.b0
  /-- Before the first non-null word everything is as reset left it (10_state.md R12, R23). -/
  fresh : s.last = none → s.ach = .ch1 ∧ s.cbuf = [] ∧ s.sink = []
  /-- There are no more events than words consumed (R21: at most one a step). -/
  counted : s.sink.length ≤ s.consumed
  /-- No word brings more than 29 characters (20_memory.md R37). -/
  bounded : (sinkChars s.sink).length + s.cbuf.length ≤ 29 * s.consumed

/-- A step is safe when it is given a meaning: neither a fault nor a refusal. -/
def StepSafe (s : State) : Prop := ∃ t, step s = .next t

/-- A sequence of beats is safe from a state when every one of them is. -/
def RunSafe (bs : List Beat) (s : State) : Prop := ∃ t, feed bs s = .next t

end Sys2Proof.Machine
end

