-- ==== Sys2Proof/Certificates/Slice0/Obligations.lean ====
section
/-! DEFINITION. The statements for the provers. Each docstring names the rule of spec/ it formalises; a clause that
rests on a decision of the spec or on a choice of the model says so and names it. -/

open Sys2Proof Sys2Proof.Machine

namespace Sys2Proof.Claims

/-- The first stripped code of a pair as a number (40_front_end.md R70). -/
def code0 (raw0 : Byte) : Nat := raw0.toNat % 128

/-- The second stripped code of a pair as a number. -/
def code1 (raw1 : Byte) : Nat := raw1.toNat % 128

/-- A control code word `w` of channel `c` is acted on (41_control_dispatch.md R84). -/
def Acts (w : ByteWord) (c : Channel) (s : State) : Prop := s.last ≠ some w ∧ c = s.tch

/-- What a control code that is dropped leaves: `ACH` and `LAST` written, all else as it was (R83, R84). -/
def dropped (w : ByteWord) (c : Channel) (s : State) : State := { s with last := some w, ach := c }

/-- What a flush of the kind `(nl, flush)` by the control code `w` of channel `c` leaves (R86, R87). -/
def flushed (w : ByteWord) (c : Channel) (nl flush : Bool) (s : State) : State :=
  { s with
    last := some w, ach := c, cbuf := [], port := some ⟨s.cbuf, nl, flush⟩,
    sink := s.sink ++ [⟨s.cbuf, nl, flush⟩] }

/-- What a control code `w` of channel `c` that makes the buffer `buf` leaves (R88 to R93). -/
def written (w : ByteWord) (c : Channel) (buf : List CapChar) (s : State) : State :=
  { s with last := some w, ach := c, cbuf := buf }

/-- The five FLR instructions with an `x` and a channel (R87). -/
def flrForms (x : BitVec 1) (c : Channel) : List Instr :=
  [.flr25 x c, .flr26 x c, .flr27 x c, .flr2C x c, .flr2D x c]

/-- The three TAB instructions with the spaces each appends (R90). -/
def tabForms (x : BitVec 1) (c : Channel) : List (Instr × Nat) :=
  [(.tab21 x c, 1), (.tab22 x c, 2), (.tab23 x c, 3)]

/-- A beat that presents a word and asserts neither `rst` nor `halt` (10_state.md R20). -/
def IsWord (b : Beat) : Prop := b.rst = false ∧ b.halt = false ∧ b.inValid = true

/-- A beat that presents a null word, with any parity bits (40_front_end.md R73). -/
def IsNullWord (b : Beat) : Prop := IsWord b ∧ code0 b.raw0 = 0 ∧ code1 b.raw1 = 0

/-- A beat that presents, while `TCH` is `c`, a word that is no control code for `c`. -/
def IsForeign (c : Channel) (b : Beat) : Prop :=
  IsWord b ∧ b.tch = c ∧ (decodePair b.raw0 b.raw1).channel? ≠ some c

/-- Two runs end alike for whoever watches the architectural state and the sink: the same refusal, or next states
equal in all but the ghost counter and the pins of the last beat. -/
def EndAlike : StepResult → StepResult → Prop
  | .next s, .next t =>
    s.cfg = t.cfg ∧ s.last = t.last ∧ s.ach = t.ach ∧ s.cbuf = t.cbuf ∧ s.inputs = t.inputs ∧ s.halted = t.halted ∧
      s.sink = t.sink
  | .refused r, .refused q => r = q
  | _, _ => False

/-- Two runs put the same text out and leave the same text behind. -/
def SameText : StepResult → StepResult → Prop
  | .next s, .next t => s.cbuf = t.cbuf ∧ s.sink = t.sink ∧ s.ach = t.ach
  | .refused r, .refused q => r = q
  | _, _ => False

end Sys2Proof.Claims

open Sys2Proof.Claims

/-! ### Encoding -/

/-- Words written out from the field letters of 30_encoding.md R60's encoding column, one or more for each class,
decode to the instruction they stand for. -/
def Obligations.WordsOfTheTableDecode : Prop :=
  decodeWord 0b1000000010000000 = .nul ∧
  decodeWord 0b0001010000101111 = .fln 1 .ch1 ∧
  decodeWord 0b1000110000100101 = .flr25 0 .ch2 ∧
  decodeWord 0b0001010010101101 = .flr2D 1 .ch1 ∧
  decodeWord 0b0001100100110111 = .spc 1 .ch2 7 ∧
  decodeWord 0b0001001110110100 = .ext 1 .ch1 1 0x14 ∧
  decodeWord 0b0000011100100010 = .tab22 0 .ch1 ∧
  decodeWord 0b0001110001010010 = .pac 1 .ch2 4 0 1 1 0 ∧
  decodeWord 0b0001010000101110 = .mid 1 .ch1 4 0x2E ∧
  decodeWord 0b0010000110010100 = .chr1 0x21 0x14 ∧
  decodeWord 0b1100100001001001 = .chr2 0x48 0x49

/-- Decoding the encoding of a well-formed instruction, with any parity bits, gives the instruction back. -/
def Obligations.DecodeOfEncode : Prop :=
  ∀ (i : Instr) (p0 p1 : BitVec 1), i.wf = true → decodeWord (encodeWith p0 p1 i) = i

/-- Every word decodes to a well-formed instruction whose codes are the word's stripped pair, and encoding it with the
word's parity bits gives the word back: each of the 65,536 words has one meaning (30_encoding.md R62). -/
def Obligations.EncodeOfDecode : Prop :=
  ∀ w : Word16,
    (decodeWord w).wf = true ∧
    codes (decodeWord w) = stripPair (wordRaw0 w) (wordRaw1 w) ∧
    encodeWith (w.extractLsb' 15 1) (w.extractLsb' 7 1) (decodeWord w) = w

/-- 30_encoding.md R53 and 40_front_end.md R70: the stripper keeps bits 6:0 of each byte, two raw pairs decode alike
exactly when their stripped pairs are equal, and a beat does the same whatever the parity bits of its bytes. -/
def Obligations.ParityTakesNoPart : Prop :=
  (∀ r : Byte, (stripParity r).setWidth 8 = r &&& 0x7F) ∧
  (∀ r0 r1 q0 q1 : Byte, decodePair r0 r1 = decodePair q0 q1 ↔ r0 &&& 0x7F = q0 &&& 0x7F ∧ r1 &&& 0x7F = q1 &&& 0x7F) ∧
  (∀ (b : Beat) (r0 r1 : Byte) (s : State), r0 &&& 0x7F = b.raw0 &&& 0x7F → r1 &&& 0x7F = b.raw1 &&& 0x7F →
    onBeat { b with raw0 := r0, raw1 := r1 } s = onBeat b s)

/-- 40_front_end.md R71: the three kinds, told apart by the stripped codes alone, and the class each word decodes to is
of the kind the classifier gives it. -/
def Obligations.ClassifierTellsThreeKinds : Prop :=
  ∀ raw0 raw1 : Byte,
    (classify (stripPair raw0 raw1) = .null ↔ code0 raw0 = 0 ∧ code1 raw1 = 0) ∧
    (classify (stripPair raw0 raw1) = .control ↔ code0 raw0 < 0x20 ∧ ¬(code0 raw0 = 0 ∧ code1 raw1 = 0)) ∧
    (classify (stripPair raw0 raw1) = .displayable ↔ 0x20 ≤ code0 raw0) ∧
    (decodePair raw0 raw1).wordClass.kind = classify (stripPair raw0 raw1)

/-- 30_encoding.md R58: the condition of each of the ten classes on the two stripped codes. -/
def Obligations.ClassConditions : Prop :=
  ∀ raw0 raw1 : Byte,
    let b0 := code0 raw0
    let b1 := code1 raw1
    let bc := b0 % 8
    let k := (decodePair raw0 raw1).wordClass
    let control := b0 < 0x20 ∧ ¬(b0 = 0 ∧ b1 = 0)
    (k = .nul ↔ b0 = 0 ∧ b1 = 0) ∧
    (k = .fln ↔ b0 < 0x20 ∧ bc = 4 ∧ b1 = 0x2F) ∧
    (k = .flr ↔ b0 < 0x20 ∧ bc = 4 ∧ (b1 = 0x25 ∨ b1 = 0x26 ∨ b1 = 0x27 ∨ b1 = 0x2C ∨ b1 = 0x2D)) ∧
    (k = .spc ↔ b0 < 0x20 ∧ bc = 1 ∧ 0x30 ≤ b1 ∧ b1 < 0x40) ∧
    (k = .ext ↔ b0 < 0x20 ∧ (bc = 2 ∨ bc = 3) ∧ 0x20 ≤ b1 ∧ b1 < 0x40) ∧
    (k = .tab ↔ b0 < 0x20 ∧ bc = 7 ∧ (b1 = 0x21 ∨ b1 = 0x22 ∨ b1 = 0x23)) ∧
    (k = .pac ↔ b0 < 0x20 ∧ 0x40 ≤ b1) ∧
    (k = .mid ↔ control ∧ k ≠ .fln ∧ k ≠ .flr ∧ k ≠ .spc ∧ k ≠ .ext ∧ k ≠ .tab ∧ k ≠ .pac) ∧
    (k = .chr2 ↔ 0x20 ≤ b0 ∧ 0x20 ≤ b1) ∧
    (k = .chr1 ↔ 0x20 ≤ b0 ∧ b1 < 0x20)

/-- The decoder, which follows the conditions of R58, gives every word the class of the first row of the opcode table
that matches it, the table in R60's form of masks and values (its packing of a word is decision D2). -/
def Obligations.DecoderAgreesWithTable : Prop :=
  ∀ w : Word16, tableClass w = some (decodeWord w).wordClass

/-- 30_encoding.md R56: every derived value as the table assembles it. -/
def Obligations.DerivedValues : Prop :=
  ∀ raw0 raw1 : Byte,
    let b0 := code0 raw0
    let b1 := code1 raw1
    (stripParity raw0).toNat = b0 ∧ (stripParity raw1).toNat = b1 ∧
    (codeChannel (stripParity raw0) = .ch2 ↔ b0 / 8 % 2 = 1) ∧
    (codeBase (stripParity raw0)).toNat = b0 % 8 ∧
    (∀ x c i, decodePair raw0 raw1 = .spc x c i → i.toNat = b1 - 0x30 ∧ 0x30 ≤ b1 ∧ b1 < 0x40) ∧
    (∀ x c s j, decodePair raw0 raw1 = .ext x c s j →
      (extIndex s j).toNat = (b0 % 8 - 2) * 0x20 + (b1 - 0x20) ∧ 2 ≤ b0 % 8 ∧ 0x20 ≤ b1) ∧
    ((decodePair raw0 raw1).wordClass = .tab →
      tabCount (stripParity raw1) = b1 - 0x20 ∧ 1 ≤ b1 - 0x20 ∧ b1 - 0x20 ≤ 3) ∧
    (0x40 ≤ b1 → preSpaces (stripParity raw1) = if b1 / 16 % 2 = 1 then 4 * (b1 / 2 % 8) else 0) ∧
    (∀ cfg : Config, charmux cfg (.basic (stripParity raw0)) = readBasic cfg (stripParity raw0))

/-- The model's presentation of a byte stream, `streamBeats`, which is a DESIGN CHOICE (log 1): one beat for each pair,
at stream offsets `2n` and `2n + 1`, in order (20_memory.md R39), no idle beat between them, and one `halt` beat after
them. That a halt ends the stream is 10_state.md R20, 60_exceptions.md R123 (decision D1) and 70_reset_and_hazards.md
R143 item 8. An odd last byte is never presented (60_exceptions.md R125), and fewer than two bytes are no
instruction. -/
def Obligations.StreamIsCutIntoPairs : Prop :=
  (∀ (c : Channel) (bs : List Byte), (streamBeats c bs).length = bs.length / 2 + 1) ∧
  (∀ (c : Channel) (bs : List Byte) (n : Nat) (h : 2 * n + 1 < bs.length),
    (streamBeats c bs)[n]? = some (wordBeat bs[2 * n] bs[2 * n + 1] c)) ∧
  (∀ (c : Channel) (bs : List Byte), (streamBeats c bs)[bs.length / 2]? = some (haltBeat c)) ∧
  (∀ (c : Channel) (bs : List Byte) (b : Byte), bs.length % 2 = 0 → streamBeats c (bs ++ [b]) = streamBeats c bs) ∧
  (∀ (bs : List Byte), bs.length < 2 → decode bs = .error .halfWord) ∧
  (∀ (r0 r1 : Byte) (bs : List Byte), decode (r0 :: r1 :: bs) = .ok (decodePair r0 r1, bs))

/-! ### The step and the host's pins -/

/-- A step in which the host presents a word to a running block is `exec` of the decoded instruction, on the state with
the beat taken off the queue, the `TCH` pin at its level, the port idle and the ghost counter one up. -/
def Obligations.StepRunsTheDecodedInstruction : Prop :=
  ∀ (s : State) (b : Beat) (rest : List Beat), s.inputs = b :: rest → IsWord b → s.halted = false →
    step s = exec (decodePair b.raw0 b.raw1)
      { s with inputs := rest, tch := b.tch, port := none, consumed := s.consumed + 1 }

/-- The word `withFetchWord` places is the one the next step runs, from every state. -/
def Obligations.FetchWordRunsNext : Prop :=
  ∀ (s : State) (w : Nat), w < 65536 →
    decodeTableWord 16 w = some (decodeWord (BitVec.ofNat 16 w)) ∧
    step (s.withFetchWord 16 w)
      = exec (decodeWord (BitVec.ofNat 16 w)) { s with halted := false, port := none, consumed := s.consumed + 1 }

/-- With no word presented the block waits and holds its state (60_exceptions.md R136): neither an empty queue nor an
idle beat changes anything but the pins. That the port is idle then is the model's choice (log 10). -/
def Obligations.WaitingHoldsTheState : Prop :=
  (∀ s : State, s.inputs = [] → step s = .next { s with port := none }) ∧
  (∀ (s : State) (b : Beat) (rest : List Beat), s.inputs = b :: rest →
    b.rst = false → b.halt = false → b.inValid = false →
    step s = .next { s with inputs := rest, tch := b.tch, port := none })

/-- `halt` ends the run with no emission (60_exceptions.md R124), and the residue of the buffer never reaches the sink.
That a word presented with `halt` is not consumed is R127 by decision D18 of the spec (log 9). That a word presented
afterwards short of `rst` is refused is the treatment of 93_implementation_defined.md U9, and that idle and `halt` beats
change nothing but the pins then is the model's DESIGN CHOICE (logs 6 and 10). -/
def Obligations.HaltEndsTheRunWithoutEmission : Prop :=
  (∀ (s : State) (b : Beat) (rest : List Beat), s.inputs = b :: rest → b.rst = false → b.halt = true →
    step s = .next { s with inputs := rest, tch := b.tch, port := none, halted := true }) ∧
  (∀ (bs : List Beat) (s : State), s.halted = true → (∀ b ∈ bs, b.rst = false) →
    feed bs s = .refused .afterHalt ∨
    ∃ c p, feed bs s = .next { s with tch := c, port := p } ∧ (bs ≠ [] → p = none))

/-- A word presented after `halt` without `rst` is refused, by that name, whatever the word
(93_implementation_defined.md U9), and nothing else is refused by it. -/
def Obligations.WordAfterHaltIsRefused : Prop :=
  ∀ (s : State) (b : Beat) (rest : List Beat), s.inputs = b :: rest →
    (step s = .refused .afterHalt ↔ IsWord b ∧ s.halted = true)

/-- A beat with `rst` puts the block in its reset state, whatever else the beat asserts and whatever went before; the
parameters, the `TCH` pin and the host's coming beats stay (decisions D1, D20; logs 7 and 9). -/
def Obligations.ResetBeatRestoresResetState : Prop :=
  ∀ (s : State) (b : Beat) (rest : List Beat), s.inputs = b :: rest → b.rst = true →
    step s = .next { State.reset with cfg := s.cfg, tch := b.tch, inputs := rest }

/-- 10_state.md R23: the values after reset. -/
def Obligations.ResetLeavesStatedValues : Prop :=
  State.reset.last = none ∧ State.reset.ach = .ch1 ∧ State.reset.cbuf = [] ∧ State.reset.consumed = 0 ∧
  State.reset.port = none

/-- A step is refused only for want of room in a finite buffer or because a word came after `halt`; from a running state
with the unbounded buffer every step has a next state (40_front_end.md R74, a derived rule). -/
def Obligations.StepIsTotalButForTwoRefusals : Prop :=
  (∀ (s : State) (r : Refusal), step s = .refused r →
    (r = .bufferFull ∧ s.cfg.cbufCap ≠ none) ∨ (r = .afterHalt ∧ s.halted = true)) ∧
  (∀ s : State, s.halted = false → s.cfg.cbufCap = none → StepSafe s)

/-- The whole step is the pseudocode of 40_front_end.md R72: for every word, every table, every `TCH` and every state of
a running block with the unbounded buffer. (R72 rests on decisions D3, D4, D9, D13.) -/
def Obligations.StepIsThePseudocode : Prop :=
  ∀ (s : State) (b : Beat) (rest : List Beat), s.inputs = b :: rest → IsWord b → s.halted = false →
    s.cfg.cbufCap = none →
    ∃ t, step s = .next t ∧
      (Reference.archOf t, t.port)
        = Reference.refStep s.cfg (Reference.channelNumber b.tch) b.raw0.toNat b.raw1.toNat (Reference.archOf s) ∧
      t.sink = s.sink ++ t.port.toList ∧
      t.cfg = s.cfg ∧ t.tch = b.tch ∧ t.inputs = rest ∧ t.halted = false ∧ t.consumed = s.consumed + 1

/-- The machine's own steps over its queue of beats are the fold of the beats, one after the other
(20_memory.md R43). -/
def Obligations.QueueIsFed : Prop :=
  ∀ (bs rest : List Beat) (s : State),
    Host.Core.run core bs.length { s with inputs := bs ++ rest } = feed bs { s with inputs := rest }

/-! ### Invariants and whole-machine rules -/

/-- The invariant holds at reset, with the spec's default tables. -/
def Obligations.ResetMeetsInv : Prop := State.reset.Inv

/-- Every step keeps the invariant: legal tables, a buffer and a sink of Unicode scalar values within their bounds, a
`LAST` that is never null and whose channel is `ACH` if it is a control code, a port that shows the sink's newest
event. -/
def Obligations.StepKeepsInv : Prop := ∀ s t : State, s.Inv → step s = .next t → t.Inv

/-- No step changes the ROMs or the capacity, no step turns a pin of the host, and none reaches into the beats to come
(20_memory.md R36 and R46, 40_front_end.md R78). -/
def Obligations.StepLeavesHostAndRoms : Prop :=
  ∀ s t : State, step s = .next t →
    t.cfg = s.cfg ∧ t.inputs = s.inputs.tail ∧ t.tch = (s.inputs.head?.map Beat.tch).getD s.tch

/-- The frame of every instruction (40_front_end.md R75, a derived table): what `exec` leaves unchanged and what it
writes in `LAST` and `ACH`. -/
def Obligations.ExecFrame : Prop :=
  ∀ (i : Instr) (s t : State), exec i s = .next t →
    t.cfg = s.cfg ∧ t.tch = s.tch ∧ t.inputs = s.inputs ∧ t.halted = s.halted ∧ t.consumed = s.consumed ∧
    t.ach = i.channel?.getD s.ach ∧
    t.last = (if i = .nul then s.last else some (codes i)) ∧
    (i.wordClass ≠ .fln → i.wordClass ≠ .flr → t.port = s.port ∧ t.sink = s.sink)

/-- Who may emit, and what (10_state.md R21, whose event shape is decision D13): a step either leaves the sink alone
and the port idle, or begins a new run by `rst`, or hands over the whole old buffer as one event, and then its word is
an FLN with `nl` or an FLR with `flush`, for `TCH`, and no repeat; `OUT` grows by the text and by one newline
exactly for the FLN. -/
def Obligations.OnlyFlushesEmit : Prop :=
  ∀ (s t : State) (b : Beat) (rest : List Beat), s.inputs = b :: rest → step s = .next t →
    (t.sink = s.sink ∧ t.port = none) ∨
    (b.rst = true ∧ t.sink = [] ∧ t.port = none) ∨
    ∃ nl : Bool, t.port = some ⟨s.cbuf, nl, !nl⟩ ∧ t.sink = s.sink ++ [⟨s.cbuf, nl, !nl⟩] ∧ t.cbuf = [] ∧
      (decodePair b.raw0 b.raw1).wordClass = (if nl then .fln else .flr) ∧
      (decodePair b.raw0 b.raw1).channel? = some b.tch ∧
      s.last ≠ some (stripPair b.raw0 b.raw1) ∧
      sinkChars t.sink = sinkChars s.sink ++ s.cbuf ++ (if nl then [newlineChar] else [])

/-- An instruction that is no flush adds at most 29 characters, takes away at most the last one, and never leaves the
buffer shorter (20_memory.md section 4, the derived paragraph after R37). -/
def Obligations.BufferGrowth : Prop :=
  ∀ (i : Instr) (s t : State), exec i s = .next t → i.wordClass ≠ .fln → i.wordClass ≠ .flr →
    s.cbuf.dropLast <+: t.cbuf ∧ s.cbuf.length ≤ t.cbuf.length ∧ t.cbuf.length ≤ s.cbuf.length + 29

/-- A finite buffer without room refuses the step, by that name (decision D8; 93_implementation_defined.md U4): each
text instruction, when it would append, and nothing else. -/
def Obligations.FullBufferIsRefused : Prop :=
  (∀ (i : Instr) (s : State) (r : Refusal), exec i s = .refused r →
    r = .bufferFull ∧ ∃ cap, s.cfg.cbufCap = some cap ∧ cap < s.cbuf.length + 29) ∧
  (∀ x c i s, Acts (codes (.spc x c i)) c s → s.cfg.holds (s.cbuf.length + 1) = false →
    exec (.spc x c i) s = .refused .bufferFull) ∧
  (∀ x c b j s, Acts (codes (.ext x c b j)) c s → s.cfg.holds (s.cbuf.length - 1 + 1) = false →
    exec (.ext x c b j) s = .refused .bufferFull) ∧
  (∀ x c s, ∀ p ∈ tabForms x c, Acts (codes p.1) c s → s.cfg.holds (s.cbuf.length + p.2) = false →
    exec p.1 s = .refused .bufferFull) ∧
  (∀ x c bc h5 h4 k u s, Acts (codes (.pac x c bc h5 h4 k u)) c s →
    s.cfg.holds (s.cbuf.length + 1 + (if h4 = 1 then 4 * k.toNat else 0)) = false →
    exec (.pac x c bc h5 h4 k u) s = .refused .bufferFull) ∧
  (∀ x c bc d s, Acts (codes (.mid x c bc d)) c s → s.cfg.holds (s.cbuf.length + 1) = false →
    exec (.mid x c bc d) s = .refused .bufferFull) ∧
  (∀ a d s, s.ach = s.tch → s.cfg.holds (s.cbuf.length + 1) = false →
    exec (.chr1 a d) s = .refused .bufferFull) ∧
  (∀ a b s, s.ach = s.tch → s.cfg.holds (s.cbuf.length + 2) = false →
    exec (.chr2 a b) s = .refused .bufferFull)

/-! ### NUL -/

/-- 40_front_end.md R73: exactly the pairs whose stripped codes are both 0 are null; NUL changes nothing and emits
nothing; and any number of null words put anywhere into a run that has not ended leaves its end the same. -/
def Obligations.NullWordsChangeNothing : Prop :=
  (∀ raw0 raw1 : Byte, decodePair raw0 raw1 = .nul ↔ code0 raw0 = 0 ∧ code1 raw1 = 0) ∧
  (∀ s : State, exec .nul s = .next s) ∧
  (∀ (xs nulls ys : List Beat) (s t : State), feed xs s = .next t → t.halted = false →
    (∀ b ∈ nulls, IsNullWord b) →
    EndAlike (feed (xs ++ nulls ++ ys) s) (feed (xs ++ ys) s))

/-! ### Control codes -/

/-- 41_control_dispatch.md R81: `ch = b0[3]` for every control code and for nothing else, and `ACH` becomes `ch` on
every control code, acted on or not. -/
def Obligations.ChannelIsBit3 : Prop :=
  (∀ raw0 raw1 : Byte,
    (decodePair raw0 raw1).channel?
      = if code0 raw0 < 0x20 ∧ ¬(code0 raw0 = 0 ∧ code1 raw1 = 0) then
          some (if code0 raw0 / 8 % 2 = 1 then .ch2 else .ch1)
        else none) ∧
  (∀ (i : Instr) (c : Channel) (s t : State), i.channel? = some c → exec i s = .next t → t.ach = c)

/-- 41_control_dispatch.md R83: a control code for another channel than `TCH` leaves everything but `ACH` and `LAST`
as it was, whichever of the seven classes it is. -/
def Obligations.OtherChannelIsDropped : Prop :=
  ∀ (i : Instr) (c : Channel) (s : State), i.channel? = some c → c ≠ s.tch →
    exec i s = .next { s with ach := c, last := some (codes i) }

/-- Repeat suppression (41_control_dispatch.md section 1; the compare on stripped codes is decision D3 and the write of
`LAST` decision D4): a control code equal to `LAST` leaves everything but `ACH` as it was. -/
def Obligations.RepeatIsDropped : Prop :=
  ∀ (i : Instr) (c : Channel) (s : State), i.channel? = some c → s.last = some (codes i) →
    exec i s = .next { s with ach := c }

/-- Copies of a control code act once (41_control_dispatch.md section 3, items 1 and 2): after the code has run, the
same code again, with any number of null words before it, changes nothing at all. -/
def Obligations.CopiesActOnce : Prop :=
  ∀ (i : Instr) (c : Channel) (s t : State), i.channel? = some c → exec i s = .next t →
    exec i t = .next t ∧ exec .nul t = .next t

/-- A repeat does not even change `ACH` in a state that meets the invariant (41_control_dispatch.md section 3,
item 5). -/
def Obligations.RepeatChangesNothing : Prop :=
  ∀ (i : Instr) (c : Channel) (s : State), s.Inv → i.wf = true → i.channel? = some c → s.last = some (codes i) →
    exec i s = .next s

/-- Bit 4 of the first code is examined by no rule but the tests for the null word (30_encoding.md R52): flipping it in
a control code leaves the class and the channel, and if both are acted on the two do the same to all but `LAST`. -/
def Obligations.Bit4IsNotExamined : Prop :=
  ∀ (b0 b1 : Code) (s : State), classify ⟨b0, b1⟩ = .control → classify ⟨b0 ^^^ 0x10, b1⟩ = .control →
    (decodeCodes ⟨b0 ^^^ 0x10, b1⟩).wordClass = (decodeCodes ⟨b0, b1⟩).wordClass ∧
    (decodeCodes ⟨b0 ^^^ 0x10, b1⟩).channel? = (decodeCodes ⟨b0, b1⟩).channel? ∧
    (s.last ≠ some ⟨b0, b1⟩ → s.last ≠ some ⟨b0 ^^^ 0x10, b1⟩ →
      ∀ t, exec (decodeCodes ⟨b0, b1⟩) s = .next t →
        exec (decodeCodes ⟨b0 ^^^ 0x10, b1⟩) s = .next { t with last := some ⟨b0 ^^^ 0x10, b1⟩ })

/-- 41_control_dispatch.md R86, FLN: its encoding, the one emission of the whole old buffer with `nl`, the cleared
buffer, what it leaves alone, the growth of `OUT`, and what it does when it is not acted on. -/
def Obligations.FlnEmitsWithNewline : Prop :=
  (∀ raw0 raw1 : Byte, (∃ x c, decodePair raw0 raw1 = .fln x c) ↔
    code0 raw0 < 0x20 ∧ code0 raw0 % 8 = 4 ∧ code1 raw1 = 0x2F) ∧
  ∀ (x : BitVec 1) (c : Channel) (s : State),
    (Acts (codes (.fln x c)) c s → exec (.fln x c) s = .next (flushed (codes (.fln x c)) c true false s)) ∧
    (¬ Acts (codes (.fln x c)) c s → exec (.fln x c) s = .next (dropped (codes (.fln x c)) c s)) ∧
    sinkChars (flushed (codes (.fln x c)) c true false s).sink = sinkChars s.sink ++ s.cbuf ++ [0x0A]

/-- 41_control_dispatch.md R87, FLR: its five encodings, the emission with `flush` and no newline, the cleared buffer,
the growth of `OUT`, what it does when not acted on, and that the five are five different words for the repeat
compare. -/
def Obligations.FlrEmitsWithoutNewline : Prop :=
  (∀ raw0 raw1 : Byte, (∃ x c, decodePair raw0 raw1 ∈ flrForms x c) ↔
    code0 raw0 < 0x20 ∧ code0 raw0 % 8 = 4 ∧
      (code1 raw1 = 0x25 ∨ code1 raw1 = 0x26 ∨ code1 raw1 = 0x27 ∨ code1 raw1 = 0x2C ∨ code1 raw1 = 0x2D)) ∧
  ∀ (x : BitVec 1) (c : Channel) (s : State),
    ((flrForms x c).map codes).Nodup ∧
    ∀ i ∈ flrForms x c,
      (Acts (codes i) c s → exec i s = .next (flushed (codes i) c false true s)) ∧
      (¬ Acts (codes i) c s → exec i s = .next (dropped (codes i) c s)) ∧
      sinkChars (flushed (codes i) c false true s).sink = sinkChars s.sink ++ s.cbuf

/-- 41_control_dispatch.md R88, SPC: its encoding, and the one `SPEC` entry it appends (not looked up in `BASIC`
again), nothing removed. The room is unbounded by decision D8; with a finite capacity it must be there. -/
def Obligations.SpcAppendsSpecial : Prop :=
  (∀ raw0 raw1 : Byte, (∃ x c i, decodePair raw0 raw1 = .spc x c i ∧ i.toNat = code1 raw1 - 0x30) ↔
    code0 raw0 < 0x20 ∧ code0 raw0 % 8 = 1 ∧ 0x30 ≤ code1 raw1 ∧ code1 raw1 < 0x40) ∧
  ∀ (x : BitVec 1) (c : Channel) (i : BitVec 4) (s : State),
    (Acts (codes (.spc x c i)) c s → s.cfg.holds (s.cbuf.length + 1) = true →
      exec (.spc x c i) s
        = .next (written (codes (.spc x c i)) c (s.cbuf ++ [s.cfg.specRom.get i.toFin]) s)) ∧
    (¬ Acts (codes (.spc x c i)) c s → exec (.spc x c i) s = .next (dropped (codes (.spc x c i)) c s))

/-- EXT (41_control_dispatch.md section 2): its encoding, and the last character replaced by entry `32 * s + j` of
`EXT`; on an empty buffer nothing is dropped and the character is appended, which is decision D9 of the spec. -/
def Obligations.ExtReplacesLast : Prop :=
  (∀ raw0 raw1 : Byte, (∃ x c b j, decodePair raw0 raw1 = .ext x c b j ∧
      32 * b.toNat + j.toNat = (code0 raw0 % 8 - 2) * 0x20 + (code1 raw1 - 0x20)) ↔
    code0 raw0 < 0x20 ∧ (code0 raw0 % 8 = 2 ∨ code0 raw0 % 8 = 3) ∧ 0x20 ≤ code1 raw1 ∧ code1 raw1 < 0x40) ∧
  ∀ (x : BitVec 1) (c : Channel) (b : BitVec 1) (j : BitVec 5) (s : State),
    (∀ kept lost, Acts (codes (.ext x c b j)) c s → s.cbuf = kept ++ [lost] →
      s.cfg.holds s.cbuf.length = true →
      exec (.ext x c b j) s = .next (written (codes (.ext x c b j)) c
        (kept ++ s.cfg.extRom.toList[32 * b.toNat + j.toNat]?.toList) s)) ∧
    (Acts (codes (.ext x c b j)) c s → s.cbuf = [] → s.cfg.holds 1 = true →
      exec (.ext x c b j) s = .next (written (codes (.ext x c b j)) c
        s.cfg.extRom.toList[32 * b.toNat + j.toNat]?.toList s)) ∧
    (¬ Acts (codes (.ext x c b j)) c s →
      exec (.ext x c b j) s = .next (dropped (codes (.ext x c b j)) c s)) ∧
    s.cfg.extRom.toList[32 * b.toNat + j.toNat]?.toList.length = 1

/-- The source's overwrite property (41_control_dispatch.md section 2, EXT, corner case e): a plain character and then
its extended code leave the buffer one character longer than before the plain character, ending in the extended
one. -/
def Obligations.PlainThenExtendedNetsOne : Prop :=
  ∀ (a : Code) (d : BitVec 5) (x : BitVec 1) (b : BitVec 1) (j : BitVec 5) (s : State),
    (Instr.chr1 a d).wf = true → s.ach = s.tch → s.cfg.holds (s.cbuf.length + 1) = true →
    ∃ t u, exec (.chr1 a d) s = .next t ∧ exec (.ext x s.tch b j) t = .next u ∧
      u.cbuf = s.cbuf ++ [readExt s.cfg (extIndex b j)] ∧ u.cbuf.length = s.cbuf.length + 1

/-- 41_control_dispatch.md R90, TAB: its three encodings, and the 1, 2 or 3 spaces each appends. -/
def Obligations.TabAppendsSpaces : Prop :=
  (∀ raw0 raw1 : Byte, (∃ x c, ∃ p ∈ tabForms x c, decodePair raw0 raw1 = p.1 ∧ p.2 = code1 raw1 - 0x20) ↔
    code0 raw0 < 0x20 ∧ code0 raw0 % 8 = 7 ∧ (code1 raw1 = 0x21 ∨ code1 raw1 = 0x22 ∨ code1 raw1 = 0x23)) ∧
  ∀ (x : BitVec 1) (c : Channel) (s : State), ∀ p ∈ tabForms x c,
    (Acts (codes p.1) c s → s.cfg.holds (s.cbuf.length + p.2) = true →
      exec p.1 s = .next (written (codes p.1) c (s.cbuf ++ List.replicate p.2 0x20) s)) ∧
    (¬ Acts (codes p.1) c s → exec p.1 s = .next (dropped (codes p.1) c s))

/-- 41_control_dispatch.md R91 and R92, PAC: its encoding whatever the basecode, a newline into the buffer followed by
`pre_spaces(b1)` spaces, and the indentation by the nibbles and by the bits of the second code. -/
def Obligations.PacAppendsNewlineAndIndent : Prop :=
  (∀ raw0 raw1 : Byte, (∃ x c bc h5 h4 k u, decodePair raw0 raw1 = .pac x c bc h5 h4 k u) ↔
    code0 raw0 < 0x20 ∧ 0x40 ≤ code1 raw1) ∧
  (∀ b1 : Code, 0x40 ≤ b1.toNat →
    preSpaces b1 = (if b1.toNat / 16 % 8 = 5 ∨ b1.toNat / 16 % 8 = 7 then b1.toNat % 16 / 2 * 4 else 0) ∧
    preSpaces b1 ∈ [0, 4, 8, 12, 16, 20, 24, 28] ∧ preSpaces (b1 ^^^ 1) = preSpaces b1) ∧
  ∀ (x : BitVec 1) (c : Channel) (bc : BitVec 3) (h5 h4 : BitVec 1) (k : BitVec 3) (u : BitVec 1) (s : State),
    let i : Instr := .pac x c bc h5 h4 k u
    let n := if h4 = 1 then 4 * k.toNat else 0
    preSpaces (codes i).b1 = n ∧
    (Acts (codes i) c s → s.cfg.holds (s.cbuf.length + 1 + n) = true →
      exec i s = .next (written (codes i) c (s.cbuf ++ 0x0A :: List.replicate n 0x20) s)) ∧
    (¬ Acts (codes i) c s → exec i s = .next (dropped (codes i) c s))

/-- 41_control_dispatch.md R93, MID: every control code that none of the other classes takes, and the single space it
appends. -/
def Obligations.MidAppendsOneSpace : Prop :=
  (∀ raw0 raw1 : Byte, (∃ x c bc d, decodePair raw0 raw1 = .mid x c bc d) ↔
    code0 raw0 < 0x20 ∧ code1 raw1 < 0x40 ∧ ¬(code0 raw0 = 0 ∧ code1 raw1 = 0) ∧
    ¬(code0 raw0 % 8 = 4 ∧ code1 raw1 ∈ [0x25, 0x26, 0x27, 0x2C, 0x2D, 0x2F]) ∧
    ¬(code0 raw0 % 8 = 1 ∧ 0x30 ≤ code1 raw1) ∧
    ¬((code0 raw0 % 8 = 2 ∨ code0 raw0 % 8 = 3) ∧ 0x20 ≤ code1 raw1) ∧
    ¬(code0 raw0 % 8 = 7 ∧ code1 raw1 ∈ [0x21, 0x22, 0x23])) ∧
  ∀ (x : BitVec 1) (c : Channel) (bc : BitVec 3) (d : BitVec 7) (s : State),
    (Acts (codes (.mid x c bc d)) c s → s.cfg.holds (s.cbuf.length + 1) = true →
      exec (.mid x c bc d) s = .next (written (codes (.mid x c bc d)) c (s.cbuf ++ [0x20]) s)) ∧
    (¬ Acts (codes (.mid x c bc d)) c s →
      exec (.mid x c bc d) s = .next (dropped (codes (.mid x c bc d)) c s))

/-! ### Displayable pairs -/

/-- 42_displayable.md R102, CHR2: its encoding, both characters through `BASIC` in order when the gate is open, none
when it is closed, `LAST` written and `ACH` kept either way, and no suppression of a repeat. -/
def Obligations.Chr2AppendsTwo : Prop :=
  (∀ raw0 raw1 : Byte, (∃ a b, decodePair raw0 raw1 = .chr2 a b) ↔ 0x20 ≤ code0 raw0 ∧ 0x20 ≤ code1 raw1) ∧
  ∀ (a b : Code) (s : State),
    (s.ach = s.tch → s.cfg.holds (s.cbuf.length + 2) = true →
      exec (.chr2 a b) s
        = .next { s with last := some ⟨a, b⟩, cbuf := s.cbuf ++ [readBasic s.cfg a, readBasic s.cfg b] }) ∧
    (s.ach ≠ s.tch → exec (.chr2 a b) s = .next { s with last := some ⟨a, b⟩ })

/-- 42_displayable.md R103, CHR1: its encoding, the one character through `BASIC` when the gate is open, none when it is
closed, every filler alike, `LAST` written with the filler and `ACH` kept either way. -/
def Obligations.Chr1AppendsOne : Prop :=
  (∀ raw0 raw1 : Byte, (∃ a d, decodePair raw0 raw1 = .chr1 a d) ↔ 0x20 ≤ code0 raw0 ∧ code1 raw1 < 0x20) ∧
  ∀ (a : Code) (d : BitVec 5) (s : State),
    (s.ach = s.tch → s.cfg.holds (s.cbuf.length + 1) = true →
      exec (.chr1 a d) s
        = .next { s with last := some ⟨a, d.setWidth 7⟩, cbuf := s.cbuf ++ [readBasic s.cfg a] }) ∧
    (s.ach ≠ s.tch → exec (.chr1 a d) s = .next { s with last := some ⟨a, d.setWidth 7⟩ })

/-- 20_memory.md R31: `BASIC` gives a remapped code its character and every other code the code point of the same
number, for every table that remaps no code twice. -/
def Obligations.BasicIsRemapOrIdentity : Prop :=
  ∀ (cfg : Config) (c : Code), (cfg.remap.toList.map Prod.fst).Nodup →
    (∀ v, (c, v) ∈ cfg.remap.toList → readBasic cfg c = v) ∧
    ((∀ v, (c, v) ∉ cfg.remap.toList) → (readBasic cfg c).toNat = c.toNat)

/-- 20_memory.md R33: entry `i` of `SPEC` is the character for second code `0x30 + i`; entry `32 * k + j` of `EXT` that
for basecode `2 + k` and second code `0x20 + j`. -/
def Obligations.RomLayout : Prop :=
  ∀ cfg : Config,
    (∀ (x : BitVec 1) (c : Channel) (i : BitVec 4),
      (codes (.spc x c i)).b1.toNat = 0x30 + i.toNat ∧
      cfg.specRom.toList[i.toNat]? = some (charmux cfg (.spec i))) ∧
    (∀ (x : BitVec 1) (c : Channel) (k : BitVec 1) (j : BitVec 5),
      (codes (.ext x c k j)).b0.toNat % 8 = 2 + k.toNat ∧ (codes (.ext x c k j)).b1.toNat = 0x20 + j.toNat ∧
      cfg.extRom.toList[32 * k.toNat + j.toNat]? = some (charmux cfg (.ext (extIndex k j))))

/-! ### Isolation of the channels -/

/-- While the last control code seen was not for `TCH`, text is not taken (42_displayable.md section 3, items 2 and 3):
any sequence of words without a control code for `TCH` leaves the buffer and the sink as they were and the gate
closed. -/
def Obligations.ForeignWordsLeaveTheText : Prop :=
  ∀ (c : Channel) (bs : List Beat) (s : State), s.halted = false → s.ach ≠ c → (∀ b ∈ bs, IsForeign c b) →
    ∃ t, feed bs s = .next t ∧ t.cbuf = s.cbuf ∧ t.sink = s.sink ∧ t.ach ≠ c ∧ t.halted = false

/-- What the other channel sends cannot be told from the text: two runs that differ only in a stretch of words of the
other channel end in the same text, whatever words for the chosen channel follow. -/
def Obligations.OtherChannelIsInvisible : Prop :=
  ∀ (c : Channel) (xs ys zs : List Beat) (s : State), s.Inv → s.halted = false → s.ach ≠ c →
    (∀ b ∈ xs, IsForeign c b) → (∀ b ∈ ys, IsForeign c b) → (∀ b ∈ zs, IsWord b ∧ b.tch = c) →
    SameText (feed (xs ++ zs) s) (feed (ys ++ zs) s)
end

