-- ==== Sys2Proof/Laws/State.lean ====
section
/-! SUPPORT. One lemma per field per update of State, so that no proof unfolds a record update. -/

namespace Sys2Proof.Machine

variable (s : State) (w : ByteWord) (ch : Channel) (nl flush : Bool) (b : Beat) (r0 r1 : Byte)

@[simp] theorem noteControl_cfg : (noteControl w ch s).cfg = s.cfg := rfl
@[simp] theorem noteControl_last : (noteControl w ch s).last = some w := rfl
@[simp] theorem noteControl_ach : (noteControl w ch s).ach = ch := rfl
@[simp] theorem noteControl_cbuf : (noteControl w ch s).cbuf = s.cbuf := rfl
@[simp] theorem noteControl_tch : (noteControl w ch s).tch = s.tch := rfl
@[simp] theorem noteControl_inputs : (noteControl w ch s).inputs = s.inputs := rfl
@[simp] theorem noteControl_halted : (noteControl w ch s).halted = s.halted := rfl
@[simp] theorem noteControl_consumed : (noteControl w ch s).consumed = s.consumed := rfl
@[simp] theorem noteControl_port : (noteControl w ch s).port = s.port := rfl
@[simp] theorem noteControl_sink : (noteControl w ch s).sink = s.sink := rfl

@[simp] theorem emit_cfg : (emit nl flush s).cfg = s.cfg := rfl
@[simp] theorem emit_last : (emit nl flush s).last = s.last := rfl
@[simp] theorem emit_ach : (emit nl flush s).ach = s.ach := rfl
@[simp] theorem emit_cbuf : (emit nl flush s).cbuf = s.cbuf := rfl
@[simp] theorem emit_tch : (emit nl flush s).tch = s.tch := rfl
@[simp] theorem emit_inputs : (emit nl flush s).inputs = s.inputs := rfl
@[simp] theorem emit_halted : (emit nl flush s).halted = s.halted := rfl
@[simp] theorem emit_consumed : (emit nl flush s).consumed = s.consumed := rfl
@[simp] theorem emit_port : (emit nl flush s).port = some ⟨s.cbuf, nl, flush⟩ := rfl
@[simp] theorem emit_sink : (emit nl flush s).sink = s.sink ++ [⟨s.cbuf, nl, flush⟩] := rfl

@[simp] theorem clearBuffer_cfg : (clearBuffer s).cfg = s.cfg := rfl
@[simp] theorem clearBuffer_last : (clearBuffer s).last = s.last := rfl
@[simp] theorem clearBuffer_ach : (clearBuffer s).ach = s.ach := rfl
@[simp] theorem clearBuffer_cbuf : (clearBuffer s).cbuf = [] := rfl
@[simp] theorem clearBuffer_tch : (clearBuffer s).tch = s.tch := rfl
@[simp] theorem clearBuffer_inputs : (clearBuffer s).inputs = s.inputs := rfl
@[simp] theorem clearBuffer_halted : (clearBuffer s).halted = s.halted := rfl
@[simp] theorem clearBuffer_consumed : (clearBuffer s).consumed = s.consumed := rfl
@[simp] theorem clearBuffer_port : (clearBuffer s).port = s.port := rfl
@[simp] theorem clearBuffer_sink : (clearBuffer s).sink = s.sink := rfl

@[simp] theorem latchPins_cfg : (latchPins b s).cfg = s.cfg := rfl
@[simp] theorem latchPins_last : (latchPins b s).last = s.last := rfl
@[simp] theorem latchPins_ach : (latchPins b s).ach = s.ach := rfl
@[simp] theorem latchPins_cbuf : (latchPins b s).cbuf = s.cbuf := rfl
@[simp] theorem latchPins_tch : (latchPins b s).tch = b.tch := rfl
@[simp] theorem latchPins_inputs : (latchPins b s).inputs = s.inputs := rfl
@[simp] theorem latchPins_halted : (latchPins b s).halted = s.halted := rfl
@[simp] theorem latchPins_consumed : (latchPins b s).consumed = s.consumed := rfl
@[simp] theorem latchPins_port : (latchPins b s).port = none := rfl
@[simp] theorem latchPins_sink : (latchPins b s).sink = s.sink := rfl

@[simp] theorem restart_cfg : (restart s).cfg = s.cfg := rfl
@[simp] theorem restart_last : (restart s).last = none := rfl
@[simp] theorem restart_ach : (restart s).ach = .ch1 := rfl
@[simp] theorem restart_cbuf : (restart s).cbuf = [] := rfl
@[simp] theorem restart_tch : (restart s).tch = s.tch := rfl
@[simp] theorem restart_inputs : (restart s).inputs = s.inputs := rfl
@[simp] theorem restart_halted : (restart s).halted = false := rfl
@[simp] theorem restart_consumed : (restart s).consumed = 0 := rfl
@[simp] theorem restart_port : (restart s).port = none := rfl
@[simp] theorem restart_sink : (restart s).sink = [] := rfl

@[simp] theorem endRun_cfg : (endRun s).cfg = s.cfg := rfl
@[simp] theorem endRun_last : (endRun s).last = s.last := rfl
@[simp] theorem endRun_ach : (endRun s).ach = s.ach := rfl
@[simp] theorem endRun_cbuf : (endRun s).cbuf = s.cbuf := rfl
@[simp] theorem endRun_tch : (endRun s).tch = s.tch := rfl
@[simp] theorem endRun_inputs : (endRun s).inputs = s.inputs := rfl
@[simp] theorem endRun_halted : (endRun s).halted = true := rfl
@[simp] theorem endRun_consumed : (endRun s).consumed = s.consumed := rfl
@[simp] theorem endRun_port : (endRun s).port = s.port := rfl
@[simp] theorem endRun_sink : (endRun s).sink = s.sink := rfl

@[simp] theorem presentWord_cfg : (presentWord r0 r1 s).cfg = s.cfg := rfl
@[simp] theorem presentWord_last : (presentWord r0 r1 s).last = s.last := rfl
@[simp] theorem presentWord_ach : (presentWord r0 r1 s).ach = s.ach := rfl
@[simp] theorem presentWord_cbuf : (presentWord r0 r1 s).cbuf = s.cbuf := rfl
@[simp] theorem presentWord_tch : (presentWord r0 r1 s).tch = s.tch := rfl
@[simp] theorem presentWord_inputs : (presentWord r0 r1 s).inputs = wordBeat r0 r1 s.tch :: s.inputs := rfl
@[simp] theorem presentWord_halted : (presentWord r0 r1 s).halted = false := rfl
@[simp] theorem presentWord_consumed : (presentWord r0 r1 s).consumed = s.consumed := rfl
@[simp] theorem presentWord_port : (presentWord r0 r1 s).port = s.port := rfl
@[simp] theorem presentWord_sink : (presentWord r0 r1 s).sink = s.sink := rfl

end Sys2Proof.Machine
end

