-- ==== Sys2Proof/Laws/Ops.lean ====
section
/-! SUPPORT. One lemma per shared operation: everything it can do. The provers cite these and do not unfold. -/

namespace Sys2Proof.Machine

variable {s t : State} {w : ByteWord} {ch : Channel} {buf : List CapChar} {r : Refusal}

@[simp] theorem append_eq (c : CapChar) (buf : List CapChar) : append c buf = buf ++ [c] := rfl

@[simp] theorem appendN_eq (c : CapChar) (n : Nat) (buf : List CapChar) :
    appendN c n buf = buf ++ List.replicate n c := rfl

@[simp] theorem droplast_eq (buf : List CapChar) : droplast buf = buf.dropLast := rfl

@[simp] theorem holds_unbounded {cfg : Config} (h : cfg.cbufCap = none) (n : Nat) : cfg.holds n = true := by
  simp [Config.holds, h]

theorem holds_zero (cfg : Config) : cfg.holds 0 = true := by
  unfold Config.holds
  split <;> simp

theorem not_holds {cfg : Config} {n : Nat} (h : cfg.holds n = false) : ∃ cap, cfg.cbufCap = some cap ∧ cap < n := by
  unfold Config.holds at h
  split at h
  · cases h
  · next cap hc => exact ⟨cap, hc, by simpa using h⟩

/-- `setBuffer` completes exactly when there is room, and then only the buffer differs. -/
theorem setBuffer_next : setBuffer buf s = .next t ↔ s.cfg.holds buf.length = true ∧ t = { s with cbuf := buf } := by
  cases h : s.cfg.holds buf.length <;> simp [setBuffer, h, eq_comm (a := t)]

theorem setBuffer_of_holds (h : s.cfg.holds buf.length = true) : setBuffer buf s = .next { s with cbuf := buf } := by
  simp [setBuffer, h]

/-- `setBuffer` refuses exactly when there is no room, and by one name only. -/
theorem setBuffer_refused : setBuffer buf s = .refused r ↔ s.cfg.holds buf.length = false ∧ r = .bufferFull := by
  cases h : s.cfg.holds buf.length <;> simp [setBuffer, h, eq_comm (a := r)]

/-- A flush always completes. -/
theorem flushBuffer_eq (nl flush : Bool) (s : State) :
    flushBuffer nl flush s
      = .next { s with
          cbuf := [], port := some ⟨s.cbuf, nl, flush⟩, sink := s.sink ++ [⟨s.cbuf, nl, flush⟩] } := rfl

theorem isRepeat_iff : isRepeat w s = true ↔ s.last = some w := by simp [isRepeat]

/-- Acted on: neither a repeat nor for the other channel (41_control_dispatch.md R84). -/
theorem actedOn_iff : actedOn w ch s = true ↔ s.last ≠ some w ∧ ch = s.tch := by
  simp [actedOn, isRepeat]

theorem gateOpen_iff : gateOpen s = true ↔ s.ach = s.tch := by simp [gateOpen]

/-- A control code that is not acted on: only `ACH` and `LAST` change. -/
theorem controlStep_dropped {action : State → StepResult} (h : ¬(s.last ≠ some w ∧ ch = s.tch)) :
    controlStep w ch action s = .next { s with ach := ch, last := some w } := by
  have h' : actedOn w ch s = false := by
    rw [← Bool.not_eq_true, actedOn_iff]
    exact h
  simp [controlStep, h', noteControl]

/-- A control code that is acted on: its action on the noted state. -/
theorem controlStep_acted {action : State → StepResult} (h : s.last ≠ some w ∧ ch = s.tch) :
    controlStep w ch action s = action { s with ach := ch, last := some w } := by
  simp [controlStep, actedOn_iff.mpr h, noteControl]

/-- Everything the control-code path can answer. -/
theorem controlStep_cases {action : State → StepResult} {o : StepResult} (h : controlStep w ch action s = o) :
    (s.last ≠ some w ∧ ch = s.tch ∧ action { s with ach := ch, last := some w } = o) ∨
    (¬(s.last ≠ some w ∧ ch = s.tch) ∧ o = .next { s with ach := ch, last := some w }) := by
  by_cases ha : s.last ≠ some w ∧ ch = s.tch
  · rw [controlStep_acted ha] at h
    exact .inl ⟨ha.1, ha.2, h⟩
  · rw [controlStep_dropped ha] at h
    exact .inr ⟨ha, h.symm⟩

/-- Everything the displayable path can answer (42_displayable.md R100). -/
theorem displayStep_cases {shown : List Code} {o : StepResult} (h : displayStep w shown s = o) :
    (s.ach = s.tch ∧ setBuffer (s.cbuf ++ shown.map (readBasic s.cfg)) { s with last := some w } = o) ∨
    (s.ach ≠ s.tch ∧ o = .next { s with last := some w }) := by
  unfold displayStep at h
  split at h
  · next hg => exact .inl ⟨gateOpen_iff.mp hg, h⟩
  · next hg => exact .inr ⟨fun he => hg (gateOpen_iff.mpr he), h.symm⟩

theorem displayStep_closed {shown : List Code} (h : s.ach ≠ s.tch) :
    displayStep w shown s = .next { s with last := some w } := by
  simp [displayStep, gateOpen, h]

theorem displayStep_open {shown : List Code} (h : s.ach = s.tch) :
    displayStep w shown s = setBuffer (s.cbuf ++ shown.map (readBasic s.cfg)) { s with last := some w } := by
  simp [displayStep, gateOpen, h, charmux]

/-- The action a control code performs when acted on; the other instructions have none. -/
def action : Instr → State → StepResult
  | .fln _ _ => flushBuffer true false
  | .flr25 _ _ => flushBuffer false true
  | .flr26 _ _ => flushBuffer false true
  | .flr27 _ _ => flushBuffer false true
  | .flr2C _ _ => flushBuffer false true
  | .flr2D _ _ => flushBuffer false true
  | .spc _ _ i => fun t => setBuffer (t.cbuf ++ [readSpec t.cfg i]) t
  | .ext _ _ b j => fun t => setBuffer (t.cbuf.dropLast ++ [readExt t.cfg (extIndex b j)]) t
  | .tab21 _ _ => fun t => setBuffer (t.cbuf ++ List.replicate 1 spaceChar) t
  | .tab22 _ _ => fun t => setBuffer (t.cbuf ++ List.replicate 2 spaceChar) t
  | .tab23 _ _ => fun t => setBuffer (t.cbuf ++ List.replicate 3 spaceChar) t
  | .pac x c bc h5 h4 k u => fun t =>
      setBuffer (t.cbuf ++ [newlineChar]
        ++ List.replicate (preSpaces (codes (.pac x c bc h5 h4 k u)).b1) spaceChar) t
  | .mid _ _ _ _ => fun t => setBuffer (t.cbuf ++ [spaceChar]) t
  | .nul => .next
  | .chr1 _ _ => .next
  | .chr2 _ _ => .next

/-- Every control code runs through the one control-code path (41_control_dispatch.md R80). -/
theorem exec_control {i : Instr} {c : Channel} (h : i.channel? = some c) (s : State) :
    exec i s = controlStep (codes i) c (action i) s := by
  cases i <;> simp only [Instr.channel?, Option.some.injEq, reduceCtorEq] at h <;> subst h <;> rfl

theorem exec_nul (s : State) : exec .nul s = .next s := rfl

theorem exec_chr1 (a : Code) (d : BitVec 5) (s : State) :
    exec (.chr1 a d) s = displayStep (codes (.chr1 a d)) [a] s := rfl

theorem exec_chr2 (a b : Code) (s : State) : exec (.chr2 a b) s = displayStep (codes (.chr2 a b)) [a, b] s := rfl

/-- What an action can do to the state it is given: a flush, or a new buffer that fits, or a refusal for want of
room. -/
theorem action_cases (i : Instr) (t : State) :
    (∃ nl, action i t
      = .next { t with
          cbuf := [], port := some ⟨t.cbuf, nl, !nl⟩, sink := t.sink ++ [⟨t.cbuf, nl, !nl⟩] }) ∨
    (∃ buf, action i t = setBuffer buf t) ∨ action i t = .next t := by
  cases i
  case fln => exact .inl ⟨true, rfl⟩
  case flr25 => exact .inl ⟨false, rfl⟩
  case flr26 => exact .inl ⟨false, rfl⟩
  case flr27 => exact .inl ⟨false, rfl⟩
  case flr2C => exact .inl ⟨false, rfl⟩
  case flr2D => exact .inl ⟨false, rfl⟩
  case nul => exact .inr (.inr rfl)
  case chr1 => exact .inr (.inr rfl)
  case chr2 => exact .inr (.inr rfl)
  all_goals exact .inr (.inl ⟨_, rfl⟩)

/-- Everything a beat can do. -/
theorem onBeat_cases {b : Beat} {o : StepResult} (h : onBeat b s = o) :
    (b.rst = true ∧ o = .next (restart (latchPins b s))) ∨
    (b.rst = false ∧ b.halt = true ∧ o = .next (endRun (latchPins b s))) ∨
    (b.rst = false ∧ b.halt = false ∧ b.inValid = true ∧ s.halted = true ∧ o = .refused .afterHalt) ∨
    (b.rst = false ∧ b.halt = false ∧ b.inValid = true ∧ s.halted = false ∧
      o = consumeWord b.raw0 b.raw1 (latchPins b s)) ∨
    (b.rst = false ∧ b.halt = false ∧ b.inValid = false ∧ o = .next (latchPins b s)) := by
  subst h
  unfold onBeat
  cases b.rst <;> cases b.halt <;> cases b.inValid <;> cases s.halted <;> simp

theorem feed_nil (s : State) : feed [] s = .next s := rfl

/-- Feeding two lists of beats is feeding the first and then, from where it ends, the second. -/
theorem feed_append (xs ys : List Beat) (s : State) :
    feed (xs ++ ys) s
      = match feed xs s with
        | .next t => feed ys t
        | .fault r => .fault r
        | .refused r => .refused r := by
  induction xs generalizing s with
  | nil => rfl
  | cons b bs ih =>
    simp only [List.cons_append, feed]
    cases onBeat b s with
    | next t => exact ih t
    | fault r => rfl
    | refused r => rfl

theorem step_cons {b : Beat} {rest : List Beat} (h : s.inputs = b :: rest) :
    step s = onBeat b { s with inputs := rest } := by
  simp [step, takeBeat, h]

theorem step_nil (h : s.inputs = []) : step s = .next { s with port := none } := by
  simp [step, takeBeat, h]

end Sys2Proof.Machine
end

