-- ==== Sys2Proof/Laws/PerInstr.lean ====
section
/-! SUPPORT. Facts about every instruction as syntax, one lemma per constructor. -/

namespace Sys2Proof.Laws.ClassifiedKind

/-- The stripped codes of a well-formed instruction are of the kind the classifier gives its class
(40_front_end.md R71). -/
def Statement (i : Instr) : Prop := i.wf = true → classify (codes i) = i.wordClass.kind

theorem control_kind (x : BitVec 1) (c : Channel) (bc : BitVec 3) (d : Code)
    (h : ¬(controlCode x c bc = 0 ∧ d = 0)) : classify ⟨controlCode x c bc, d⟩ = .control := by
  have hlt : ∀ (x : BitVec 1) (c : BitVec 1) (bc : BitVec 3), (0#2 ++ x ++ c ++ bc : Code) < 0x20 := by decide
  have := hlt x (channelBit c) bc
  simp only [classify]
  rw [if_neg h, if_pos (by simpa [controlCode] using this)]

theorem displayable_kind (a d : Code) (h : 0x20 ≤ a) : classify ⟨a, d⟩ = .displayable := by
  have h1 : ¬ a < 0x20 := BitVec.not_lt.mpr h
  have h0 : ¬ (a = 0 ∧ d = 0) := fun he => absurd (he.1 ▸ h) (by decide)
  simp only [classify]
  rw [if_neg h0, if_neg h1]

theorem nul : Statement .nul := fun _ => rfl
theorem fln (x : BitVec 1) (c : Channel) : Statement (.fln x c) := fun _ => control_kind _ _ _ _ (by simp)
theorem flr25 (x : BitVec 1) (c : Channel) : Statement (.flr25 x c) := fun _ => control_kind _ _ _ _ (by simp)
theorem flr26 (x : BitVec 1) (c : Channel) : Statement (.flr26 x c) := fun _ => control_kind _ _ _ _ (by simp)
theorem flr27 (x : BitVec 1) (c : Channel) : Statement (.flr27 x c) := fun _ => control_kind _ _ _ _ (by simp)
theorem flr2C (x : BitVec 1) (c : Channel) : Statement (.flr2C x c) := fun _ => control_kind _ _ _ _ (by simp)
theorem flr2D (x : BitVec 1) (c : Channel) : Statement (.flr2D x c) := fun _ => control_kind _ _ _ _ (by simp)

theorem spc (x : BitVec 1) (c : Channel) (i : BitVec 4) : Statement (.spc x c i) := fun _ =>
  control_kind _ _ _ _ (by
    have : ∀ i : BitVec 4, ¬ (3#3 ++ i : Code) = 0 := by decide
    exact fun h => this i h.2)

theorem ext (x : BitVec 1) (c : Channel) (s : BitVec 1) (j : BitVec 5) : Statement (.ext x c s j) := fun _ =>
  control_kind _ _ _ _ (by
    have : ∀ j : BitVec 5, ¬ (1#2 ++ j : Code) = 0 := by decide
    exact fun h => this j h.2)

theorem tab21 (x : BitVec 1) (c : Channel) : Statement (.tab21 x c) := fun _ => control_kind _ _ _ _ (by simp)
theorem tab22 (x : BitVec 1) (c : Channel) : Statement (.tab22 x c) := fun _ => control_kind _ _ _ _ (by simp)
theorem tab23 (x : BitVec 1) (c : Channel) : Statement (.tab23 x c) := fun _ => control_kind _ _ _ _ (by simp)

theorem pac (x : BitVec 1) (c : Channel) (bc : BitVec 3) (h5 h4 : BitVec 1) (k : BitVec 3) (u : BitVec 1) :
    Statement (.pac x c bc h5 h4 k u) := fun _ =>
  control_kind _ _ _ _ (by
    have : ∀ (h5 h4 : BitVec 1) (k : BitVec 3) (u : BitVec 1), ¬ (1#1 ++ h5 ++ h4 ++ k ++ u : Code) = 0 := by decide
    exact fun h => this h5 h4 k u h.2)

theorem mid (x : BitVec 1) (c : Channel) (bc : BitVec 3) (d : BitVec 7) : Statement (.mid x c bc d) := fun hwf =>
  control_kind _ _ _ _ (by
    rintro ⟨hb, hd⟩
    have key : ∀ (x : BitVec 1) (c : BitVec 1) (bc : BitVec 3),
        (0#2 ++ x ++ c ++ bc : Code) = 0 → x = 0 ∧ c = 0 ∧ bc = 0 := by decide
    obtain ⟨rfl, hc, rfl⟩ := key x (channelBit c) bc hb
    cases c with
    | ch1 => subst hd; simp [Instr.wf, midFree] at hwf
    | ch2 => simp [channelBit] at hc)

theorem chr1 (a : Code) (d : BitVec 5) : Statement (.chr1 a d) := fun hwf =>
  displayable_kind _ _ (by simpa [Instr.wf] using hwf)

theorem chr2 (a b : Code) : Statement (.chr2 a b) := fun hwf =>
  displayable_kind _ _ (by
    have : 0x20 ≤ a ∧ 0x20 ≤ b := by simpa [Instr.wf] using hwf
    exact this.1)

end Sys2Proof.Laws.ClassifiedKind
end

