-- ==== Sys2Proof/Laws/Exec.lean ====
section
/-! SUPPORT. What `exec` and a beat can do, once and for all: the inversion of a next state, the characters an
instruction brings, and that the queue of coming beats plays no part. -/

namespace Sys2Proof.Machine

variable {i : Instr} {s t : State} {c : Channel}

/-- What a text control code keeps of the buffer (41_control_dispatch.md R89: EXT drops the last character). -/
def keptOf : Instr → List CapChar → List CapChar
  | .ext _ _ _ _ => List.dropLast
  | _ => id

/-- The characters an instruction appends when it is acted on or its gate is open (43_charmap_mux.md R111). -/
def textOf (cfg : Config) : Instr → List CapChar
  | .spc _ _ i => [readSpec cfg i]
  | .ext _ _ b j => [readExt cfg (extIndex b j)]
  | .tab21 _ _ => List.replicate 1 spaceChar
  | .tab22 _ _ => List.replicate 2 spaceChar
  | .tab23 _ _ => List.replicate 3 spaceChar
  | .pac x c bc h5 h4 k u =>
      newlineChar :: List.replicate (preSpaces (codes (.pac x c bc h5 h4 k u)).b1) spaceChar
  | .mid _ _ _ _ => [spaceChar]
  | .chr1 a _ => [readBasic cfg a]
  | .chr2 a b => [readBasic cfg a, readBasic cfg b]
  | _ => []

theorem preSpaces_le (b1 : Code) : preSpaces b1 ≤ 28 := by
  revert b1
  decide

theorem textOf_length_le (cfg : Config) (i : Instr) : (textOf cfg i).length ≤ 29 := by
  cases i <;> simp [textOf]
  exact Nat.lt_succ_of_le (preSpaces_le _)

theorem readSpec_mem (cfg : Config) (i : BitVec 4) : readSpec cfg i ∈ cfg.specRom.toList := by
  simp [readSpec, Vector.get]

theorem readExt_mem (cfg : Config) (i : BitVec 6) : readExt cfg i ∈ cfg.extRom.toList := by
  simp [readExt, Vector.get]

theorem isScalar_of_code : ∀ c : Code, isScalar (c.setWidth 21) = true := by decide

theorem readBasic_scalar {cfg : Config} (h : cfg.legal = true) (c : Code) : isScalar (readBasic cfg c) = true := by
  unfold readBasic
  split
  · next p hp =>
    simp only [Config.legal, Bool.and_eq_true, List.all_eq_true] at h
    exact h.1.1.1 p (List.mem_of_find?_eq_some hp)
  · exact isScalar_of_code c

theorem readSpec_scalar {cfg : Config} (h : cfg.legal = true) (i : BitVec 4) : isScalar (readSpec cfg i) = true := by
  simp only [Config.legal, Bool.and_eq_true, List.all_eq_true] at h
  exact h.1.2 _ (readSpec_mem cfg i)

theorem readExt_scalar {cfg : Config} (h : cfg.legal = true) (i : BitVec 6) : isScalar (readExt cfg i) = true := by
  simp only [Config.legal, Bool.and_eq_true, List.all_eq_true] at h
  exact h.2 _ (readExt_mem cfg i)

/-- Legal tables bring Unicode scalar values only (20_memory.md R36). -/
theorem textOf_scalar {cfg : Config} (h : cfg.legal = true) (i : Instr) : ∀ c ∈ textOf cfg i, isScalar c = true := by
  have hs : isScalar spaceChar = true := by decide
  have hn : isScalar newlineChar = true := by decide
  cases i <;> simp [textOf, readSpec_scalar h, readExt_scalar h, readBasic_scalar h, hs, hn]

/-- The action of a text control code in one form. -/
theorem action_text (h : i.channel? = some c) (h1 : i.wordClass ≠ .fln) (h2 : i.wordClass ≠ .flr) (t : State) :
    action i t = setBuffer (keptOf i t.cbuf ++ textOf t.cfg i) t := by
  cases i <;> simp_all [Instr.channel?, Instr.wordClass, action, keptOf, textOf]

/-- The action of a flush control code in one form: FLN asks for a newline, FLR for a flush. -/
theorem action_flush (h : i.wordClass = .fln ∨ i.wordClass = .flr) (t : State) :
    ∃ nl, i.wordClass = (if nl = true then .fln else .flr) ∧ action i t
      = .next { t with cbuf := [], port := some ⟨t.cbuf, nl, !nl⟩, sink := t.sink ++ [⟨t.cbuf, nl, !nl⟩] } := by
  cases i <;> simp [Instr.wordClass] at h
  case fln => exact ⟨true, rfl, rfl⟩
  all_goals exact ⟨false, rfl, rfl⟩

theorem codeChannel_controlCode (x : BitVec 1) (c : Channel) (bc : BitVec 3) :
    codeChannel (controlCode x c bc) = c := by
  revert x bc
  cases c <;> decide

/-- A control code is not null, is of the control kind, and holds its channel in its codes. -/
theorem control_facts (h : i.channel? = some c) :
    i ≠ .nul ∧ i.wordClass.kind = .control ∧ codeChannel (codes i).b0 = c := by
  cases i <;> simp only [Instr.channel?, reduceCtorEq, Option.some.injEq] at h <;> subst h <;>
    exact ⟨by simp, rfl, codeChannel_controlCode _ _ _⟩

/-- Everything `exec` can do when it answers a next state. -/
inductive Ran (i : Instr) (s : State) : State → Prop
  /-- NUL. -/
  | null (h : i = .nul) : Ran i s s
  /-- A control code that is a repeat or for the other channel. -/
  | dropped (c : Channel) (hc : i.channel? = some c) (h : ¬(s.last ≠ some (codes i) ∧ c = s.tch)) :
      Ran i s { s with ach := c, last := some (codes i) }
  /-- An FLN or FLR that is acted on. -/
  | flushed (c : Channel) (nl : Bool) (hc : i.channel? = some c) (h : s.last ≠ some (codes i) ∧ c = s.tch)
      (hk : i.wordClass = (if nl = true then .fln else .flr)) :
      Ran i s { s with
        ach := c, last := some (codes i), cbuf := [], port := some ⟨s.cbuf, nl, !nl⟩,
        sink := s.sink ++ [⟨s.cbuf, nl, !nl⟩] }
  /-- An SPC, EXT, TAB, PAC or MID that is acted on. -/
  | text (c : Channel) (hc : i.channel? = some c) (h : s.last ≠ some (codes i) ∧ c = s.tch)
      (h1 : i.wordClass ≠ .fln) (h2 : i.wordClass ≠ .flr)
      (room : s.cfg.holds (keptOf i s.cbuf ++ textOf s.cfg i).length = true) :
      Ran i s { s with ach := c, last := some (codes i), cbuf := keptOf i s.cbuf ++ textOf s.cfg i }
  /-- A displayable pair whose gate is open. -/
  | shown (hk : i.wordClass.kind = .displayable) (hc : i.channel? = none) (hg : s.ach = s.tch)
      (room : s.cfg.holds (s.cbuf ++ textOf s.cfg i).length = true) :
      Ran i s { s with last := some (codes i), cbuf := s.cbuf ++ textOf s.cfg i }
  /-- A displayable pair whose gate is closed. -/
  | hidden (hk : i.wordClass.kind = .displayable) (hc : i.channel? = none) (hg : s.ach ≠ s.tch) :
      Ran i s { s with last := some (codes i) }

theorem displayStep_ran {l : List Code} (hk : i.wordClass.kind = .displayable) (hc : i.channel? = none)
    (hl : textOf s.cfg i = l.map (readBasic s.cfg)) (h : displayStep (codes i) l s = .next t) : Ran i s t := by
  rcases displayStep_cases h with ⟨hg, ho⟩ | ⟨hg, ho⟩
  · rw [← hl] at ho
    obtain ⟨room, rfl⟩ := setBuffer_next.mp ho
    exact .shown hk hc hg room
  · injection ho with ho
    exact ho ▸ .hidden hk hc hg

/-- The inversion of `exec`: a next state is one of the six of `Ran`. -/
theorem exec_next_cases (h : exec i s = .next t) : Ran i s t := by
  cases hc : i.channel? with
  | some c =>
    rw [exec_control hc] at h
    rcases controlStep_cases h with ⟨ha, ht, ho⟩ | ⟨hd, ho⟩
    · by_cases hf : i.wordClass = .fln ∨ i.wordClass = .flr
      · obtain ⟨nl, hk, hx⟩ := action_flush hf { s with ach := c, last := some (codes i) }
        rw [hx] at ho
        injection ho with ho
        exact ho ▸ .flushed c nl hc ⟨ha, ht⟩ hk
      · rw [action_text hc (fun e => hf (.inl e)) (fun e => hf (.inr e))] at ho
        obtain ⟨room, rfl⟩ := setBuffer_next.mp ho
        exact .text c hc ⟨ha, ht⟩ (fun e => hf (.inl e)) (fun e => hf (.inr e)) room
    · injection ho with ho
      exact ho ▸ .dropped c hc hd
  | none =>
    cases i <;> simp only [Instr.channel?, reduceCtorEq] at hc
    case nul =>
      rw [exec_nul] at h
      injection h with h
      exact h ▸ .null rfl
    case chr1 => exact displayStep_ran rfl rfl rfl (exec_chr1 _ _ _ ▸ h)
    case chr2 => exact displayStep_ran rfl rfl rfl (exec_chr2 _ _ _ ▸ h)

/-- An instruction is refused by one name only, and only for want of room. -/
theorem exec_refused_cases {r : Refusal} (h : exec i s = .refused r) :
    r = .bufferFull ∧ ∃ buf : List CapChar, s.cfg.holds buf.length = false ∧ buf.length ≤ s.cbuf.length + 29 := by
  have hlen := textOf_length_le s.cfg i
  have hdisplay : ∀ l : List Code, textOf s.cfg i = l.map (readBasic s.cfg) →
      displayStep (codes i) l s = .refused r →
      r = .bufferFull ∧ ∃ buf : List CapChar, s.cfg.holds buf.length = false ∧ buf.length ≤ s.cbuf.length + 29 := by
    intro l hl h
    rcases displayStep_cases h with ⟨_, ho⟩ | ⟨_, ho⟩
    · rw [← hl] at ho
      obtain ⟨full, hr⟩ := setBuffer_refused.mp ho
      exact ⟨hr, _, full, by simpa using hlen⟩
    · cases ho
  cases hc : i.channel? with
  | some c =>
    rw [exec_control hc] at h
    rcases controlStep_cases h with ⟨_, _, ho⟩ | ⟨_, ho⟩
    · by_cases hf : i.wordClass = .fln ∨ i.wordClass = .flr
      · obtain ⟨nl, _, hx⟩ := action_flush hf { s with ach := c, last := some (codes i) }
        rw [hx] at ho
        cases ho
      · rw [action_text hc (fun e => hf (.inl e)) (fun e => hf (.inr e))] at ho
        obtain ⟨full, hr⟩ := setBuffer_refused.mp ho
        refine ⟨hr, _, full, ?_⟩
        have hk : (keptOf i s.cbuf).length ≤ s.cbuf.length := by cases i <;> simp [keptOf]
        simp only [List.length_append]
        omega
    · cases ho
  | none =>
    cases i <;> simp only [Instr.channel?, reduceCtorEq] at hc
    case nul => cases h
    case chr1 => exact hdisplay _ rfl (exec_chr1 _ _ _ ▸ h)
    case chr2 => exact hdisplay _ rfl (exec_chr2 _ _ _ ▸ h)

/-- A word beat to a running block is `exec` of the decoded instruction. -/
theorem onBeat_word {b : Beat} (h1 : b.rst = false) (h2 : b.halt = false) (h3 : b.inValid = true)
    (hs : s.halted = false) :
    onBeat b s = exec (decodePair b.raw0 b.raw1)
      { s with tch := b.tch, port := none, consumed := s.consumed + 1 } := by
  simp [onBeat, h1, h2, h3, hs, consumeWord, latchPins]

/-- The same outcome with another queue of coming beats. -/
def withQueue (l : List Beat) : StepResult → StepResult
  | .next s => .next { s with inputs := l }
  | .fault r => .fault r
  | .refused r => .refused r

theorem setBuffer_withQueue (l : List Beat) (buf : List CapChar) (s : State) :
    setBuffer buf { s with inputs := l } = withQueue l (setBuffer buf s) := by
  cases h : s.cfg.holds buf.length <;> simp [setBuffer, withQueue, h]

theorem controlStep_withQueue {action : State → StepResult} (l : List Beat) (w : ByteWord) (ch : Channel)
    (ha : ∀ s, action { s with inputs := l } = withQueue l (action s)) (s : State) :
    controlStep w ch action { s with inputs := l } = withQueue l (controlStep w ch action s) := by
  by_cases h : s.last ≠ some w ∧ ch = s.tch
  · rw [controlStep_acted h, controlStep_acted (s := { s with inputs := l }) h]
    exact ha { s with ach := ch, last := some w }
  · rw [controlStep_dropped h, controlStep_dropped (s := { s with inputs := l }) h]
    rfl

theorem displayStep_withQueue (l : List Beat) (w : ByteWord) (shown : List Code) (s : State) :
    displayStep w shown { s with inputs := l } = withQueue l (displayStep w shown s) := by
  by_cases h : s.ach = s.tch
  · rw [displayStep_open h, displayStep_open (s := { s with inputs := l }) h]
    exact setBuffer_withQueue l _ { s with last := some w }
  · rw [displayStep_closed h, displayStep_closed (s := { s with inputs := l }) h]
    rfl

/-- No instruction looks at the beats to come. -/
theorem exec_withQueue (i : Instr) (l : List Beat) (s : State) :
    exec i { s with inputs := l } = withQueue l (exec i s) := by
  cases hc : i.channel? with
  | some c =>
    rw [exec_control hc, exec_control hc]
    refine controlStep_withQueue l _ _ (fun s => ?_) s
    cases i <;> first | rfl | exact setBuffer_withQueue l _ s
  | none =>
    cases i <;> simp only [Instr.channel?, reduceCtorEq] at hc
    case nul => rfl
    case chr1 => exact displayStep_withQueue l _ _ s
    case chr2 => exact displayStep_withQueue l _ _ s

end Sys2Proof.Machine
end

