-- ==== Sys2Proof/Tests/Slice0.lean ====
section
/-! SUPPORT. Tests. Words are written out bit by bit from the encoding column of 30_encoding.md R60; results of steps are
rows of spec/95_test_vectors.md, named in each comment; the witness theorems show that the hypotheses of the statements
can be met. -/

namespace Sys2Proof.Tests

open Sys2Proof.Machine Sys2Proof.Claims

/-! ### Ill-formed terms, one for each check -/

theorem test_wf_mid_range : (Instr.mid 1 .ch1 4 0x40).wf = false := by decide
theorem test_wf_mid_null : (Instr.mid 0 .ch1 0 0).wf = false := by decide
theorem test_wf_mid_spc : (Instr.mid 1 .ch1 1 0x30).wf = false := by decide
theorem test_wf_mid_ext_bank0 : (Instr.mid 1 .ch2 2 0x20).wf = false := by decide
theorem test_wf_mid_ext_bank1 : (Instr.mid 1 .ch2 3 0x3F).wf = false := by decide
theorem test_wf_mid_flush : (Instr.mid 1 .ch1 4 0x2F).wf = false := by decide
theorem test_wf_mid_tab : (Instr.mid 1 .ch1 7 0x22).wf = false := by decide
theorem test_wf_chr1 : (Instr.chr1 0x1F 0).wf = false := by decide
theorem test_wf_chr2_first : (Instr.chr2 0x1F 0x20).wf = false := by decide
theorem test_wf_chr2_second : (Instr.chr2 0x20 0x1F).wf = false := by decide

/-- Well-formed neighbours of the terms above. -/
theorem test_wf_neighbours :
    (Instr.mid 1 .ch1 4 0x3F).wf ∧ (Instr.mid 0 .ch2 0 0).wf ∧ (Instr.mid 1 .ch1 1 0x2F).wf ∧
    (Instr.mid 1 .ch2 2 0x1F).wf ∧ (Instr.mid 1 .ch1 5 0x2F).wf ∧ (Instr.mid 1 .ch1 7 0x24).wf ∧
    (Instr.chr1 0x20 0).wf ∧ (Instr.chr2 0x20 0x20).wf := by decide

/-- A table with a surrogate, a table that remaps a code twice: no legal parameters (93_implementation_defined.md
U12). -/
theorem test_config_surrogate :
    { defaultConfig with specRom := defaultSpecRom.set 3 0xD800 }.legal = false := by decide
theorem test_config_twice :
    { defaultConfig with remap := defaultRemap.set 0 (0x7E, 0xE1) }.legal = false := by decide

/-! ### One word for each constructor, bit by bit (30_encoding.md R60) -/

theorem test_decode_nul : decodeWord 0b1000000010000000 = .nul := by decide
theorem test_decode_fln : decodeWord 0b0001010000101111 = .fln 1 .ch1 := by decide
theorem test_decode_flr25 : decodeWord 0b1000110000100101 = .flr25 0 .ch2 := by decide
theorem test_decode_flr26 : decodeWord 0b1001010000100110 = .flr26 1 .ch1 := by decide
theorem test_decode_flr27 : decodeWord 0b1001010010100111 = .flr27 1 .ch1 := by decide
theorem test_decode_flr2C : decodeWord 0b0001110000101100 = .flr2C 1 .ch2 := by decide
theorem test_decode_flr2D : decodeWord 0b0000010010101101 = .flr2D 0 .ch1 := by decide
theorem test_decode_spc : decodeWord 0b0001100100110111 = .spc 1 .ch2 7 := by decide
theorem test_decode_ext : decodeWord 0b0001001110110100 = .ext 1 .ch1 1 0x14 := by decide
theorem test_decode_tab21 : decodeWord 0b1001011110100001 = .tab21 1 .ch1 := by decide
theorem test_decode_tab22 : decodeWord 0b0000011100100010 = .tab22 0 .ch1 := by decide
theorem test_decode_tab23 : decodeWord 0b0001111100100011 = .tab23 1 .ch2 := by decide
theorem test_decode_pac : decodeWord 0b0001110001010010 = .pac 1 .ch2 4 0 1 1 0 := by decide
theorem test_decode_mid : decodeWord 0b0001010000101110 = .mid 1 .ch1 4 0x2E := by decide
theorem test_decode_chr1 : decodeWord 0b0010000110010100 = .chr1 0x21 0x14 := by decide
theorem test_decode_chr2 : decodeWord 0b1100100001001001 = .chr2 0x48 0x49 := by decide

/-- V-DEC-3, V-DEC-11, V-DEC-15, V-DEC-20, V-DEC-23, V-DEC-32: the neighbours of the classes. -/
theorem test_decode_neighbours :
    (decodePair 0x00 0x41).wordClass = .pac ∧ (decodePair 0x0C 0x2F).wordClass = .fln ∧
    (decodePair 0x15 0x2F).wordClass = .mid ∧ (decodePair 0x12 0x1F).wordClass = .mid ∧
    decodePair 0x1B 0x20 = .ext 1 .ch2 1 0 ∧ (decodePair 0x7F 0x1F).wordClass = .chr1 := by decide

theorem test_table_numbers_first_byte_high : decodeTableWord 16 0x142F = some (.fln 1 .ch1) := by decide
theorem test_encode_fln : encode (.fln 1 .ch1) = 0x142F := by decide

/-! ### Steps: rows of spec/95_test_vectors.md -/

/-- A small state, the host presenting one word. -/
def before (last : Option ByteWord) (ach : Channel) (cbuf : List CapChar) (tch : Channel) (r0 r1 : Byte) : State :=
  { State.reset with last := last, ach := ach, cbuf := cbuf, tch := tch, inputs := [wordBeat r0 r1 tch] }

/-- What a test looks at after one step: `LAST`, `ACH`, `CBUF` and the port. -/
def after (s : State) : Option (Option ByteWord × Channel × List CapChar × Option Emission) :=
  match step s with
  | .next t => some (t.last, t.ach, t.cbuf, t.port)
  | .fault _ => none
  | .refused _ => none

/-- V-NUL-4. -/
theorem test_nul : after (before (some ⟨0x1C, 0x20⟩) .ch2 [0x48, 0x49] .ch1 0x00 0x80)
    = some (some ⟨0x1C, 0x20⟩, .ch2, [0x48, 0x49], none) := by decide
/-- V-FLN-1. -/
theorem test_fln : after (before (some ⟨0x4C, 0x4F⟩) .ch1 [0x48, 0x45] .ch1 0x94 0x2F)
    = some (some ⟨0x14, 0x2F⟩, .ch1, [], some ⟨[0x48, 0x45], true, false⟩) := by decide
/-- V-FLN-2, the second transmission. -/
theorem test_fln_repeat : after (before (some ⟨0x14, 0x2F⟩) .ch1 [] .ch1 0x94 0x2F)
    = some (some ⟨0x14, 0x2F⟩, .ch1, [], none) := by decide
/-- V-FLR-2. -/
theorem test_flr25 : after (before (some ⟨0x48, 0x49⟩) .ch1 [0x48, 0x49] .ch1 0x94 0x25)
    = some (some ⟨0x14, 0x25⟩, .ch1, [], some ⟨[0x48, 0x49], false, true⟩) := by decide
/-- V-FLR-6, a different FLR code right after another. -/
theorem test_flr26 : after (before (some ⟨0x14, 0x25⟩) .ch1 [] .ch1 0x94 0x26)
    = some (some ⟨0x14, 0x26⟩, .ch1, [], some ⟨[], false, true⟩) := by decide
/-- V-FLR-4. -/
theorem test_flr27 : after (before (some ⟨0x48, 0x49⟩) .ch1 [0x48, 0x49] .ch1 0x94 0xA7)
    = some (some ⟨0x14, 0x27⟩, .ch1, [], some ⟨[0x48, 0x49], false, true⟩) := by decide
/-- V-FLR-9, for the other channel. -/
theorem test_flr2C : after (before (some ⟨0x48, 0x49⟩) .ch1 [0x48, 0x49] .ch1 0x1C 0x2C)
    = some (some ⟨0x1C, 0x2C⟩, .ch2, [0x48, 0x49], none) := by decide
/-- V-FLR-10, acted on although the buffer was gathered for channel 1. -/
theorem test_flr2D : after (before (some ⟨0x48, 0x49⟩) .ch1 [0x48, 0x49] .ch2 0x8C 0xAD)
    = some (some ⟨0x0C, 0x2D⟩, .ch2, [], some ⟨[0x48, 0x49], false, true⟩) := by decide
/-- V-SPC-1 (default SPECROM). -/
theorem test_spc : after (before (some ⟨0x4C, 0x41⟩) .ch1 [0x4C, 0x41] .ch1 0x91 0x37)
    = some (some ⟨0x11, 0x37⟩, .ch1, [0x4C, 0x41, 0x266A], none) := by decide
/-- V-EXT-4 (default EXTROM): the dropped character is a PAC's newline. -/
theorem test_ext : after (before (some ⟨0x14, 0x40⟩) .ch1 [0x41, 0x42, 0x0A] .ch1 0x13 0x34)
    = some (some ⟨0x13, 0x34⟩, .ch1, [0x41, 0x42, 0xDF], none) := by decide
/-- V-EXT-3, the empty buffer (decision D9). -/
theorem test_ext_empty : after (before none .ch1 [] .ch1 0x92 0xA1)
    = some (some ⟨0x12, 0x21⟩, .ch1, [0xC9], none) := by decide
/-- V-TAB-1. -/
theorem test_tab21 : after (before (some ⟨0x14, 0x40⟩) .ch1 [0x0A] .ch1 0x97 0xA1)
    = some (some ⟨0x17, 0x21⟩, .ch1, [0x0A, 0x20], none) := by decide
/-- V-TAB-8. -/
theorem test_tab22 : after (before (some ⟨0x1C, 0x40⟩) .ch2 [0x0A] .ch2 0x1F 0xA2)
    = some (some ⟨0x1F, 0x22⟩, .ch2, [0x0A, 0x20, 0x20], none) := by decide
/-- V-TAB-3. -/
theorem test_tab23 : after (before (some ⟨0x14, 0x40⟩) .ch1 [0x0A] .ch1 0x97 0x23)
    = some (some ⟨0x17, 0x23⟩, .ch1, [0x0A, 0x20, 0x20, 0x20], none) := by decide
/-- V-PAC-12: basecode 1 and second code 0x54. -/
theorem test_pac : after (before (some ⟨0x48, 0x49⟩) .ch1 [0x48] .ch1 0x91 0x54)
    = some (some ⟨0x11, 0x54⟩, .ch1, [0x48, 0x0A, 0x20, 0x20, 0x20, 0x20, 0x20, 0x20, 0x20, 0x20], none) := by decide
/-- V-PAC-9: high nibble 0x70 and low nibble 0. -/
theorem test_pac_no_indent : after (before (some ⟨0x48, 0x49⟩) .ch1 [0x48] .ch1 0x94 0x70)
    = some (some ⟨0x14, 0x70⟩, .ch1, [0x48, 0x0A], none) := by decide
/-- V-MID-3: `raw 94 20`, the word conflict C4 is about. -/
theorem test_mid : after (before (some ⟨0x4C, 0x4F⟩) .ch1 [0x4C, 0x4F] .ch1 0x94 0x20)
    = some (some ⟨0x14, 0x20⟩, .ch1, [0x4C, 0x4F, 0x20], none) := by decide
/-- V-CHR1-4 (default REMAP). -/
theorem test_chr1 : after (before (some ⟨0x48, 0x49⟩) .ch1 [0x48, 0x49] .ch1 0xFE 0x80)
    = some (some ⟨0x7E, 0x00⟩, .ch1, [0x48, 0x49, 0xF1], none) := by decide
/-- V-CHR1-5, the gate closed. -/
theorem test_chr1_closed : after (before (some ⟨0x1C, 0x20⟩) .ch2 [0x48, 0x49] .ch1 0xA1 0x80)
    = some (some ⟨0x21, 0x00⟩, .ch2, [0x48, 0x49], none) := by decide
/-- V-CHR2-10 (default REMAP). -/
theorem test_chr2 : after (before none .ch1 [] .ch1 0xFB 0x7C)
    = some (some ⟨0x7B, 0x7C⟩, .ch1, [0xE7, 0xF7], none) := by decide
/-- V-CHR2-6: an equal pair is no repeat. -/
theorem test_chr2_again : after (before (some ⟨0x4C, 0x4C⟩) .ch1 [0x4C, 0x4C] .ch1 0x4C 0x4C)
    = some (some ⟨0x4C, 0x4C⟩, .ch1, [0x4C, 0x4C, 0x4C, 0x4C], none) := by decide

/-- 41_control_dispatch.md R86: the sink stream grows by the text and a newline. -/
theorem test_out_fln : sinkChars [⟨[0x48, 0x45], true, false⟩, ⟨[0x41], false, true⟩] = [0x48, 0x45, 0x0A, 0x41] := by
  decide

/-! ### Witnesses: the hypotheses of the statements can be met -/

/-- A state of a running block in the middle of a caption: the last word was the pair `48 49`. -/
def mid : State := { before (some ⟨0x48, 0x49⟩) .ch1 [0x48, 0x49] .ch1 0x94 0x2F with consumed := 1 }

/-- The same with a finite capacity that is used up. -/
def full : State := { mid with cfg := { defaultConfig with cbufCap := some 2 } }

/-- After `halt`, a word coming. -/
def ended : State := { mid with halted := true }

/-- The last control code seen was for channel 2 while channel 1 is chosen. -/
def foreign : State := before (some ⟨0x1C, 0x20⟩) .ch2 [0x48] .ch1 0x48 0x49

/-- `exec` answers a next state. -/
def completes (i : Instr) (s : State) : Bool :=
  match exec i s with
  | .next _ => true
  | .fault _ => false
  | .refused _ => false

theorem default_legal : defaultConfig.legal = true := by decide

theorem mid_legal : mid.cfg.legal = true := default_legal
theorem mid_scalar : ∀ c ∈ mid.cbuf, isScalar c = true := by simp [mid, before, isScalar]
theorem mid_pair : ∀ w, mid.last = some w → classify w ≠ .control := by
  intro w hw
  injection hw with hw
  subst hw
  decide

theorem mid_inv : mid.Inv :=
  ⟨mid_legal, rfl, mid_scalar, by simp [mid, before, State.reset], by simp [mid, before, State.reset],
    by simp [mid, before, State.reset], by simp [mid, before], fun w hw hk => absurd hk (mid_pair w hw),
    by simp [mid, before], by simp [mid, before, State.reset], by simp [mid, before, State.reset, sinkChars]⟩

theorem witness_DecodeOfEncode : (Instr.mid 1 .ch1 4 0x2E).wf = true ∧ (Instr.chr2 0x20 0x7F).wf = true := by decide

theorem witness_ParityTakesNoPart :
    (0x94 : Byte) &&& 0x7F = (wordBeat 0x14 0x2F .ch1).raw0 &&& 0x7F ∧
    (0xAF : Byte) &&& 0x7F = (wordBeat 0x14 0x2F .ch1).raw1 &&& 0x7F := by decide

theorem witness_DerivedValues_spc_low : decodePair 0x11 0x30 = .spc 1 .ch1 0 := by decide
theorem witness_DerivedValues_spc_high : decodePair 0x11 0x3F = .spc 1 .ch1 15 := by decide
theorem witness_DerivedValues_ext_low : decodePair 0x12 0x20 = .ext 1 .ch1 0 0 := by decide
theorem witness_DerivedValues_ext_high : decodePair 0x13 0x3F = .ext 1 .ch1 1 31 := by decide
theorem witness_DerivedValues_tab :
    (decodePair 0x17 0x21).wordClass = .tab ∧ (decodePair 0x17 0x23).wordClass = .tab := by decide
theorem witness_DerivedValues_pac : 0x40 ≤ code1 0x40 ∧ 0x40 ≤ code1 0xFF := by decide

theorem witness_StreamIsCutIntoPairs :
    2 * 1 + 1 < [(0x94 : Byte), 0x2F, 0x48, 0x49].length ∧ [(0x94 : Byte), 0x2F].length % 2 = 0 ∧
    [(0x94 : Byte)].length < 2 := by decide

theorem witness_StepRunsTheDecodedInstruction :
    mid.inputs = wordBeat 0x94 0x2F .ch1 :: [] ∧ IsWord (wordBeat 0x94 0x2F .ch1) ∧ mid.halted = false :=
  ⟨rfl, ⟨rfl, rfl, rfl⟩, rfl⟩

theorem witness_FetchWordRunsNext : 0 < 65536 ∧ 65535 < 65536 := by decide

/-- An idle beat: no word, no `rst`, no `halt`. -/
def idleBeat : Beat := ⟨false, false, false, 0x94, 0x2F, .ch2⟩

theorem witness_WaitingHoldsTheState :
    State.reset.inputs = [] ∧
    { mid with inputs := [idleBeat] }.inputs = idleBeat :: [] ∧ idleBeat.rst = false ∧ idleBeat.halt = false ∧
    idleBeat.inValid = false := ⟨rfl, rfl, rfl, rfl, rfl⟩

/-- `halt` together with a word. -/
def haltWord : Beat := { wordBeat 0x94 0x2F .ch1 with halt := true }

theorem witness_HaltEndsTheRun_now :
    { mid with inputs := [haltWord] }.inputs = haltWord :: [] ∧ haltWord.rst = false ∧ haltWord.halt = true :=
  ⟨rfl, rfl, rfl⟩

theorem witness_HaltEndsTheRun_after :
    ended.halted = true ∧ ∀ b ∈ [idleBeat, haltWord, wordBeat 0x94 0x2F .ch1], b.rst = false := by decide

theorem witness_WordAfterHaltIsRefused :
    ended.inputs = wordBeat 0x94 0x2F .ch1 :: [] ∧ IsWord (wordBeat 0x94 0x2F .ch1) ∧ ended.halted = true :=
  ⟨rfl, ⟨rfl, rfl, rfl⟩, rfl⟩

theorem witness_ResetBeatRestoresResetState :
    { ended with inputs := [resetBeat .ch2] }.inputs = resetBeat .ch2 :: [] ∧ (resetBeat .ch2).rst = true := ⟨rfl, rfl⟩

theorem witness_StepIsTotal_full :
    step { full with inputs := [wordBeat 0x48 0x49 .ch1] } = .refused .bufferFull := rfl
theorem witness_StepIsTotal_ended : step ended = .refused .afterHalt := rfl
theorem witness_StepIsTotal_running : mid.halted = false ∧ mid.cfg.cbufCap = none := ⟨rfl, rfl⟩

theorem witness_StepIsThePseudocode :
    mid.inputs = wordBeat 0x94 0x2F .ch1 :: [] ∧ IsWord (wordBeat 0x94 0x2F .ch1) ∧ mid.halted = false ∧
    mid.cfg.cbufCap = none := ⟨rfl, ⟨rfl, rfl, rfl⟩, rfl, rfl⟩

theorem witness_StepKeepsInv : mid.Inv ∧ ∃ t, step mid = .next t := ⟨mid_inv, _, rfl⟩
theorem witness_StepLeavesHostAndRoms : ∃ t, step mid = .next t := ⟨_, rfl⟩

theorem witness_ExecFrame :
    completes .nul mid ∧ completes (.spc 1 .ch1 7) mid ∧ completes (.spc 1 .ch2 7) mid ∧ completes (.fln 1 .ch1) mid ∧
    completes (.chr2 0x48 0x49) mid ∧ completes (.chr2 0x48 0x49) foreign := by decide

theorem witness_OnlyFlushesEmit_fln : mid.inputs = wordBeat 0x94 0x2F .ch1 :: [] ∧ ∃ t, step mid = .next t :=
  ⟨rfl, _, rfl⟩
theorem witness_OnlyFlushesEmit_flr :
    ∃ t, step { mid with inputs := [wordBeat 0x94 0x2D .ch1] } = .next t ∧ t.port = some ⟨[0x48, 0x49], false, true⟩ :=
  ⟨_, rfl, rfl⟩

theorem witness_BufferGrowth_most :
    completes (.pac 1 .ch1 4 0 1 7 0) mid ∧ (Instr.pac 1 .ch1 4 0 1 7 0).wordClass ≠ .fln ∧
    (Instr.pac 1 .ch1 4 0 1 7 0).wordClass ≠ .flr := by decide
theorem witness_BufferGrowth_least : completes (.ext 1 .ch1 0 1) mid ∧ (Instr.ext 1 .ch1 0 1).wordClass = .ext := by decide

/-- Acted on: the last word was another and the channel is the target. -/
theorem acts_mid (i : Instr) (h : (codes i).b0 ≠ 0x48) : Acts (codes i) .ch1 mid :=
  ⟨fun e => h (by injection e with e; exact congrArg ByteWord.b0 e.symm), rfl⟩

theorem acts_full (i : Instr) (h : (codes i).b0 ≠ 0x48) : Acts (codes i) .ch1 full :=
  ⟨fun e => h (by injection e with e; exact congrArg ByteWord.b0 e.symm), rfl⟩

theorem witness_FullBufferIsRefused_text :
    Acts (codes (.spc 1 .ch1 7)) .ch1 full ∧ Acts (codes (.tab23 1 .ch1)) .ch1 full ∧
    Acts (codes (.pac 1 .ch1 4 0 1 2 0)) .ch1 full ∧ Acts (codes (.mid 1 .ch1 4 0x20)) .ch1 full ∧
    full.cfg.holds (full.cbuf.length + 1) = false ∧ full.cfg.holds (full.cbuf.length + 3) = false ∧
    full.cfg.holds (full.cbuf.length + 1 + (if (1 : BitVec 1) = 1 then 4 * (2 : BitVec 3).toNat else 0)) = false :=
  ⟨acts_full _ (by decide), acts_full _ (by decide), acts_full _ (by decide), acts_full _ (by decide), rfl, rfl, rfl⟩

/-- A capacity of 0 has no room even for the character that replaces the last one. -/
theorem witness_FullBufferIsRefused_ext :
    Acts (codes (.ext 1 .ch1 0 1)) .ch1 { full with cfg := { defaultConfig with cbufCap := some 0 } } ∧
    { defaultConfig with cbufCap := some 0 }.holds (full.cbuf.length - 1 + 1) = false :=
  ⟨acts_full _ (by decide), rfl⟩

theorem witness_FullBufferIsRefused_display :
    full.ach = full.tch ∧ full.cfg.holds (full.cbuf.length + 1) = false ∧
    full.cfg.holds (full.cbuf.length + 2) = false := ⟨rfl, rfl, rfl⟩

theorem witness_NullWordsChangeNothing :
    (∃ t, feed [wordBeat 0x94 0x2C .ch1] mid = .next t ∧ t.halted = false) ∧
    ∀ b ∈ [wordBeat 0x00 0x00 .ch1, wordBeat 0x80 0x80 .ch2], IsNullWord b :=
  ⟨⟨_, rfl, rfl⟩, by simp [IsNullWord, IsWord, wordBeat, code0, code1]⟩

theorem witness_ChannelIsBit3 : (Instr.fln 1 .ch2).channel? = some .ch2 ∧ completes (.fln 1 .ch2) mid := by decide
theorem witness_OtherChannelIsDropped : (Instr.ext 1 .ch2 0 1).channel? = some .ch2 ∧ Channel.ch2 ≠ mid.tch := by decide

/-- A state in which the code `14 2F` is a repeat. -/
def repeated : State := { mid with last := some ⟨0x14, 0x2F⟩ }

theorem repeated_inv : repeated.Inv :=
  ⟨mid_legal, rfl, mid_scalar, by simp [repeated, mid, before, State.reset], by simp [repeated, mid, before, State.reset],
    by simp [repeated, mid, before, State.reset], by simp [repeated], by
      intro w hw _
      injection hw with hw
      subst hw
      decide,
    by simp [repeated], by simp [repeated, mid, before, State.reset],
    by simp [repeated, mid, before, State.reset, sinkChars]⟩

theorem witness_RepeatIsDropped :
    (Instr.fln 1 .ch1).channel? = some .ch1 ∧ repeated.last = some (codes (.fln 1 .ch1)) := by decide
theorem witness_CopiesActOnce : (Instr.mid 1 .ch1 4 0x21).channel? = some .ch1 ∧ completes (.mid 1 .ch1 4 0x21) mid := by
  decide
theorem witness_RepeatChangesNothing :
    repeated.Inv ∧ (Instr.fln 1 .ch1).wf = true ∧ (Instr.fln 1 .ch1).channel? = some .ch1 ∧
    repeated.last = some (codes (.fln 1 .ch1)) :=
  ⟨repeated_inv, rfl, rfl, by decide⟩

theorem witness_Bit4IsNotExamined :
    classify ⟨0x14, 0x2F⟩ = .control ∧ classify ⟨0x14 ^^^ 0x10, 0x2F⟩ = .control ∧
    mid.last ≠ some ⟨0x14, 0x2F⟩ ∧ mid.last ≠ some ⟨0x14 ^^^ 0x10, 0x2F⟩ ∧
    completes (decodeCodes ⟨0x14, 0x2F⟩) mid := by decide

/-- FLN, FLR: acted on; a repeat; for the other channel. -/
theorem witness_flushes :
    Acts (codes (.fln 1 .ch1)) .ch1 mid ∧ ¬ Acts (codes (.fln 1 .ch1)) .ch1 repeated ∧
    ¬ Acts (codes (.fln 1 .ch2)) .ch2 mid ∧ Acts (codes (.flr2C 0 .ch1)) .ch1 mid ∧
    ¬ Acts (codes (.flr25 1 .ch2)) .ch2 mid :=
  ⟨acts_mid _ (by decide), fun h => h.1 (by decide), fun h => absurd h.2 (by decide), acts_mid _ (by decide),
    fun h => absurd h.2 (by decide)⟩

theorem witness_SpcAppendsSpecial :
    Acts (codes (.spc 1 .ch1 7)) .ch1 mid ∧ mid.cfg.holds (mid.cbuf.length + 1) = true ∧
    ¬ Acts (codes (.spc 1 .ch2 7)) .ch2 mid :=
  ⟨acts_mid _ (by decide), rfl, fun h => absurd h.2 (by decide)⟩

theorem witness_ExtReplacesLast :
    Acts (codes (.ext 1 .ch1 0 1)) .ch1 mid ∧ mid.cbuf = [0x48] ++ [0x49] ∧ mid.cfg.holds mid.cbuf.length = true ∧
    Acts (codes (.ext 1 .ch1 0 1)) .ch1 { mid with cbuf := [] } ∧ { mid with cbuf := [] }.cbuf = [] ∧
    mid.cfg.holds 1 = true ∧ ¬ Acts (codes (.ext 1 .ch2 0 1)) .ch2 mid :=
  ⟨acts_mid _ (by decide), rfl, rfl, acts_mid _ (by decide), rfl, rfl, fun h => absurd h.2 (by decide)⟩

theorem witness_PlainThenExtendedNetsOne :
    (Instr.chr1 0x45 0).wf = true ∧ mid.ach = mid.tch ∧ mid.cfg.holds (mid.cbuf.length + 1) = true := ⟨rfl, rfl, rfl⟩

theorem witness_TabAppendsSpaces :
    Acts (codes (.tab21 1 .ch1)) .ch1 mid ∧ Acts (codes (.tab23 1 .ch1)) .ch1 mid ∧
    mid.cfg.holds (mid.cbuf.length + 3) = true ∧ ¬ Acts (codes (.tab22 1 .ch2)) .ch2 mid :=
  ⟨acts_mid _ (by decide), acts_mid _ (by decide), rfl, fun h => absurd h.2 (by decide)⟩

theorem witness_PacAppendsNewlineAndIndent :
    0x40 ≤ (0x40 : Code).toNat ∧ 0x40 ≤ (0x7F : Code).toNat ∧
    Acts (codes (.pac 1 .ch1 4 0 1 7 1)) .ch1 mid ∧ Acts (codes (.pac 1 .ch1 0 1 0 7 0)) .ch1 mid ∧
    mid.cfg.holds (mid.cbuf.length + 1 + (if (1 : BitVec 1) = 1 then 4 * (7 : BitVec 3).toNat else 0)) = true ∧
    ¬ Acts (codes (.pac 1 .ch2 4 0 1 7 1)) .ch2 mid :=
  ⟨by decide, by decide, acts_mid _ (by decide), acts_mid _ (by decide), rfl, fun h => absurd h.2 (by decide)⟩

theorem witness_MidAppendsOneSpace :
    Acts (codes (.mid 1 .ch1 4 0x20)) .ch1 mid ∧ mid.cfg.holds (mid.cbuf.length + 1) = true ∧
    ¬ Acts (codes (.mid 1 .ch2 4 0x20)) .ch2 mid :=
  ⟨acts_mid _ (by decide), rfl, fun h => absurd h.2 (by decide)⟩

/-- The gate open with room, and the gate closed. -/
theorem witness_displayables :
    mid.ach = mid.tch ∧ mid.cfg.holds (mid.cbuf.length + 2) = true ∧ mid.cfg.holds (mid.cbuf.length + 1) = true ∧
    foreign.ach ≠ foreign.tch := by decide

theorem witness_BasicIsRemapOrIdentity :
    (defaultConfig.remap.toList.map Prod.fst).Nodup ∧ (0x2A, 0xE1) ∈ defaultConfig.remap.toList ∧
    ∀ v, ((0x7F : Code), v) ∉ defaultConfig.remap.toList :=
  ⟨by decide, by decide, by simp [defaultConfig, defaultRemap]⟩

/-- Words of the other channel while channel 1 is chosen: text, a control code for channel 2, a null word. -/
def foreignWords : List Beat := [wordBeat 0x41 0x42 .ch1, wordBeat 0x1C 0x2F .ch1, wordBeat 0x80 0x80 .ch1]

theorem foreignWords_foreign : ∀ b ∈ foreignWords, IsForeign .ch1 b := by
  have h : ∀ b ∈ foreignWords, (b.rst = false ∧ b.halt = false ∧ b.inValid = true) ∧ b.tch = .ch1 ∧
      (decodePair b.raw0 b.raw1).channel? ≠ some .ch1 := by decide
  exact h

theorem witness_ForeignWordsLeaveTheText :
    foreign.halted = false ∧ foreign.ach ≠ .ch1 ∧ ∀ b ∈ foreignWords, IsForeign .ch1 b :=
  ⟨rfl, by decide, foreignWords_foreign⟩

/-- The same state after one word was counted. -/
def foreignCounted : State := { foreign with consumed := 1 }

theorem foreignCounted_scalar : ∀ c ∈ foreignCounted.cbuf, isScalar c = true := by
  simp [foreignCounted, foreign, before, isScalar]

theorem foreignCounted_inv : foreignCounted.Inv :=
  ⟨default_legal, rfl, foreignCounted_scalar, by simp [foreignCounted, foreign, before, State.reset],
    by simp [foreignCounted, foreign, before, State.reset], by simp [foreignCounted, foreign, before, State.reset],
    by simp [foreignCounted, foreign, before], by
      intro w hw _
      injection hw with hw
      subst hw
      decide,
    by simp [foreignCounted, foreign, before], by simp [foreignCounted, foreign, before, State.reset],
    by simp [foreignCounted, foreign, before, State.reset, sinkChars]⟩

theorem witness_OtherChannelIsInvisible :
    foreignCounted.Inv ∧ foreignCounted.halted = false ∧ foreignCounted.ach ≠ .ch1 ∧
    (∀ b ∈ foreignWords, IsForeign .ch1 b) ∧ (∀ b ∈ [wordBeat 0x14 0x2F .ch1], IsWord b ∧ b.tch = .ch1) :=
  ⟨foreignCounted_inv, rfl, by decide, foreignWords_foreign, by simp [IsWord, wordBeat]⟩

end Sys2Proof.Tests
end

section
/-! The reset state against 10_state.md R23. -/

namespace Sys2Proof.Proofs

/-- Settles O16: each value R23 states is the field of `State.reset` that holds it; `LAST.b0` and `LAST.b1`, which R23
leaves unspecified, do not exist there, since `LAST` is none. -/
theorem resetLeavesStatedValues : Obligations.ResetLeavesStatedValues :=
  ⟨rfl, rfl, rfl, rfl, rfl⟩

end Sys2Proof.Proofs
end

section
/-! The presentation of a byte stream against 20_memory.md R39 and 60_exceptions.md R125. -/

namespace Sys2Proof.Proofs

open Sys2Proof.Machine

variable (c : Channel)

@[simp] theorem streamBeats_nil : streamBeats c [] = [haltBeat c] := rfl

@[simp] theorem streamBeats_oddByte (r : Byte) : streamBeats c [r] = [haltBeat c] := rfl

@[simp] theorem streamBeats_pair (r0 r1 : Byte) (bs : List Byte) :
    streamBeats c (r0 :: r1 :: bs) = wordBeat r0 r1 c :: streamBeats c bs := rfl

/-- Two bytes more are one pair more. -/
theorem pairCount_cons_cons (r0 r1 : Byte) (bs : List Byte) :
    (r0 :: r1 :: bs).length / 2 = bs.length / 2 + 1 :=
  Nat.add_div_right bs.length Nat.zero_lt_two

theorem streamBeats_length (bs : List Byte) : (streamBeats c bs).length = bs.length / 2 + 1 := by
  induction bs using streamBeats.induct with
  | case1 r0 r1 rest ih => rw [streamBeats_pair, List.length_cons, ih, pairCount_cons_cons]
  | case2 r => simp
  | case3 => simp

theorem streamBeats_getElem?_word (bs : List Byte) (n : Nat) (h : 2 * n + 1 < bs.length) :
    (streamBeats c bs)[n]? = some (wordBeat bs[2 * n] bs[2 * n + 1] c) := by
  induction bs using streamBeats.induct generalizing n with
  | case1 r0 r1 rest ih =>
    cases n with
    | zero => simp
    | succ n =>
      have hn : 2 * n + 1 < rest.length := by simp only [List.length_cons] at h; omega
      simpa [Nat.mul_add] using ih n hn
  | case2 r => simp at h
  | case3 => simp at h

theorem streamBeats_getElem?_halt (bs : List Byte) : (streamBeats c bs)[bs.length / 2]? = some (haltBeat c) := by
  induction bs using streamBeats.induct with
  | case1 r0 r1 rest ih => rw [streamBeats_pair, pairCount_cons_cons, List.getElem?_cons_succ, ih]
  | case2 r => simp
  | case3 => simp

theorem streamBeats_append_oddByte (bs : List Byte) (b : Byte) (h : bs.length % 2 = 0) :
    streamBeats c (bs ++ [b]) = streamBeats c bs := by
  induction bs using streamBeats.induct with
  | case1 r0 r1 rest ih =>
    have hrest : rest.length % 2 = 0 := by simp only [List.length_cons] at h; omega
    simpa using ih hrest
  | case2 r => simp at h
  | case3 => simp

theorem decode_of_length_lt_two : ∀ bs : List Byte, bs.length < 2 → decode bs = .error .halfWord
  | [], _ => rfl
  | [_], _ => rfl
  | _ :: _ :: _, h => by simp at h

/-- Settles O9: each clause on `streamBeats` by induction along its own recursion, two bytes at a time; a stream of
fewer than two bytes has no pair for the decoder. -/
theorem streamIsCutIntoPairs : Obligations.StreamIsCutIntoPairs :=
  ⟨streamBeats_length, streamBeats_getElem?_word, streamBeats_getElem?_halt, streamBeats_append_oddByte,
    decode_of_length_lt_two, fun _ _ _ => rfl⟩

end Sys2Proof.Proofs
end

section
/-! The character tables against 20_memory.md R31 and R33. -/

namespace Sys2Proof.Proofs

open Sys2Proof.Machine

variable {cfg : Config} {c : Code}

/-- In a table without a doubled key the search for a key stops at the one entry that has it. -/
theorem readBasic_of_mem {v : CapChar} (hnd : (cfg.remap.toList.map Prod.fst).Nodup)
    (hv : (c, v) ∈ cfg.remap.toList) : readBasic cfg c = v := by
  unfold readBasic
  split
  next p hp =>
    have hkey : p.1 = c := by simpa using List.find?_some hp
    have hmem : p ∈ cfg.remap.toList := List.mem_of_find?_eq_some hp
    have hpv : p = (c, v) := List.inj_on_of_nodup_map hnd hmem hv hkey
    rw [hpv]
  next hp => simpa using List.find?_eq_none.mp hp _ hv

theorem readBasic_of_not_mem (hv : ∀ v, (c, v) ∉ cfg.remap.toList) : readBasic cfg c = c.setWidth 21 := by
  unfold readBasic
  split
  next p hp =>
    have hkey : p.1 = c := by simpa using List.find?_some hp
    exact absurd (hkey ▸ List.mem_of_find?_eq_some hp) (hv p.2)
  next => rfl

/-- Settles O44: a remapped code finds its entry, and any other code is widened from 7 to 21 bits. -/
theorem basicIsRemapOrIdentity : Obligations.BasicIsRemapOrIdentity := by
  intro cfg c hnd
  refine ⟨fun v hv => readBasic_of_mem hnd hv, fun hv => ?_⟩
  rw [readBasic_of_not_mem hv]
  exact BitVec.toNat_setWidth_of_le (by decide)

/-- A concatenation counts its low part from the high part's place value. -/
theorem toNat_append_add {m n : Nat} (a : BitVec m) (b : BitVec n) :
    (a ++ b).toNat = 2 ^ n * a.toNat + b.toNat := by
  rw [BitVec.toNat_append, ← Nat.shiftLeft_add_eq_or_of_lt b.isLt, Nat.shiftLeft_eq, Nat.mul_comm]

theorem extIndex_toNat (k : BitVec 1) (j : BitVec 5) : (extIndex k j).toNat = 32 * k.toNat + j.toNat :=
  toNat_append_add k j

theorem controlCode_toNat_mod_eight (x : BitVec 1) (c : Channel) (bc : BitVec 3) :
    (controlCode x c bc).toNat % 8 = bc.toNat := by
  have h : (controlCode x c bc).toNat = 2 ^ 3 * (0#2 ++ x ++ channelBit c).toNat + bc.toNat := toNat_append_add _ _
  have := bc.isLt
  omega

theorem table_getElem?_index {n : Nat} (table : Vector CapChar n) (i : Fin n) :
    table.toList[i.val]? = some (table.get i) := by
  simp [Vector.get_eq_getElem]

theorem specRom_getElem? (cfg : Config) (i : BitVec 4) : cfg.specRom.toList[i.toNat]? = some (readSpec cfg i) :=
  table_getElem?_index cfg.specRom i.toFin

theorem extRom_getElem? (cfg : Config) (i : BitVec 6) : cfg.extRom.toList[i.toNat]? = some (readExt cfg i) :=
  table_getElem?_index cfg.extRom i.toFin

/-- Settles O45: each code and each index is a concatenation of fields, and the multiplexer reads the table at the
index. -/
theorem romLayout : Obligations.RomLayout := by
  intro cfg
  refine ⟨fun x c i => ⟨?_, specRom_getElem? cfg i⟩, fun x c k j => ⟨?_, ?_, ?_⟩⟩
  · exact toNat_append_add (3#3) i
  · exact (controlCode_toNat_mod_eight x c _).trans (toNat_append_add (1#2) k)
  · exact toNat_append_add (1#2) j
  · rw [← extIndex_toNat]
    exact extRom_getElem? cfg _

end Sys2Proof.Proofs
end

section
/-! The stripped codes of a word against 30_encoding.md R51 to R53: the decoder loses no bit of them. -/

namespace Sys2Proof.Proofs

open Sys2Proof.Machine Sys2Proof.Claims

variable {w : ByteWord}

theorem byteWord_eq {a b : Code} (h0 : a = w.b0) (h1 : b = w.b1) : (⟨a, b⟩ : ByteWord) = w := by
  rw [h0, h1]

/-- A code is its known high bits followed by its low bits. -/
theorem append_extractLsb' {m n : Nat} (hi : BitVec m) (d : BitVec (m + n)) (h : d.toNat / 2 ^ n = hi.toNat) :
    hi ++ d.extractLsb' 0 n = d := by
  apply BitVec.eq_of_toNat_eq
  rw [toNat_append_add, BitVec.extractLsb'_toNat, Nat.shiftRight_zero, ← h]
  exact Nat.div_add_mod _ _

/-- The field layout of R51 read back: below 0x20 a first code is its fields. -/
theorem controlCode_fields :
    ∀ b0 : Code, b0 < 0x20 → controlCode (codeX b0) (codeChannel b0) (codeBase b0) = b0 := by
  decide

theorem controlCode_of_base {b0 : Code} {bc : BitVec 3} (h : b0 < 0x20) (hbc : codeBase b0 = bc) :
    controlCode (codeX b0) (codeChannel b0) bc = b0 := hbc ▸ controlCode_fields b0 h

/-- The bank of an extended character is the low bit of its basecode, 2 or 3 (R56). -/
theorem extBase_eq :
    ∀ b0 : Code, codeBase b0 = 2 ∨ codeBase b0 = 3 → codeBase b0 = 1#2 ++ b0.extractLsb' 0 1 := by
  decide

theorem pacCode_eq : ∀ b1 : Code, 0x40 ≤ b1 →
    1#1 ++ b1.extractLsb' 5 1 ++ b1.extractLsb' 4 1 ++ b1.extractLsb' 1 3 ++ b1.extractLsb' 0 1 = b1 := by
  decide

/-- Each row of the decoder puts its fields where the word has them (R58 rows 2 to 8). The cases are the decoder's
branches in order: 7 is SPC, 8 EXT, 12 PAC, 13 MID, and the others are rows with a fixed second code. -/
theorem codes_decodeControl (h0 : w.b0 < 0x20) : codes (decodeControl w) = w := by
  fun_cases decodeControl w
  case case7 h =>
    obtain ⟨hbc, hlo, hhi⟩ := h
    exact byteWord_eq (controlCode_of_base h0 hbc) (append_extractLsb' 3#3 _ (by bv_omega))
  case case8 h =>
    obtain ⟨hbc, hlo, hhi⟩ := h
    exact byteWord_eq (controlCode_of_base h0 (extBase_eq _ hbc)) (append_extractLsb' 1#2 _ (by bv_omega))
  case case12 h => exact byteWord_eq (controlCode_fields _ h0) (pacCode_eq _ h)
  case case13 => exact byteWord_eq (controlCode_fields _ h0) rfl
  all_goals
    next h => exact byteWord_eq (controlCode_of_base h0 h.1) h.2.symm

theorem codes_decodeDisplayable : codes (decodeDisplayable w) = w := by
  fun_cases decodeDisplayable w
  case case1 => rfl
  case case2 h => exact byteWord_eq rfl (append_extractLsb' 0#2 _ (by bv_omega))

/-- The three kinds of R71 with what the decoder does for each. -/
theorem decodeCodes_cases (w : ByteWord) :
    (w.b0 = 0 ∧ w.b1 = 0 ∧ decodeCodes w = .nul) ∨
    (w.b0 < 0x20 ∧ ¬(w.b0 = 0 ∧ w.b1 = 0) ∧ decodeCodes w = decodeControl w) ∨
    (0x20 ≤ w.b0 ∧ decodeCodes w = decodeDisplayable w) := by
  unfold decodeCodes
  fun_cases classify w
  case case1 h => exact .inl ⟨h.1, h.2, rfl⟩
  case case2 hn h => exact .inr (.inl ⟨h, hn, rfl⟩)
  case case3 h => exact .inr (.inr ⟨BitVec.not_lt.mp h, rfl⟩)

/-- The decoder loses no bit of a stripped pair. -/
@[simp] theorem codes_decodeCodes (w : ByteWord) : codes (decodeCodes w) = w := by
  obtain ⟨h0, h1, hd⟩ | ⟨h, -, hd⟩ | ⟨-, hd⟩ := decodeCodes_cases w <;> rw [hd]
  · exact byteWord_eq h0.symm h1.symm
  · exact codes_decodeControl h
  · exact codes_decodeDisplayable

theorem decodeCodes_injective : Function.Injective decodeCodes :=
  Function.LeftInverse.injective codes_decodeCodes

/-! The parity bits against R53 and 40_front_end.md R70. -/

theorem stripParity_toNat (r : Byte) : (stripParity r).toNat = r.toNat % 128 := by
  simp [stripParity]

theorem stripPair_b0_toNat (r0 r1 : Byte) : (stripPair r0 r1).b0.toNat = code0 r0 := stripParity_toNat r0

theorem stripPair_b1_toNat (r0 r1 : Byte) : (stripPair r0 r1).b1.toNat = code1 r1 := stripParity_toNat r1

theorem stripParity_setWidth (r : Byte) : (stripParity r).setWidth 8 = r &&& 0x7F := by
  apply BitVec.eq_of_toNat_eq
  rw [BitVec.toNat_setWidth_of_le (by decide), stripParity_toNat]
  exact (Nat.and_two_pow_sub_one_eq_mod r.toNat 7).symm

theorem stripParity_eq_iff {r q : Byte} : stripParity r = stripParity q ↔ r &&& 0x7F = q &&& 0x7F := by
  rw [← stripParity_setWidth, ← stripParity_setWidth, ← BitVec.toNat_inj, ← BitVec.toNat_inj,
    BitVec.toNat_setWidth_of_le (by decide), BitVec.toNat_setWidth_of_le (by decide)]

theorem decodePair_eq_iff {r0 r1 q0 q1 : Byte} :
    decodePair r0 r1 = decodePair q0 q1 ↔ r0 &&& 0x7F = q0 &&& 0x7F ∧ r1 &&& 0x7F = q1 &&& 0x7F := by
  unfold decodePair
  rw [decodeCodes_injective.eq_iff, stripPair, stripPair, ByteWord.mk.injEq, stripParity_eq_iff, stripParity_eq_iff]

/-- A beat looks at its bytes through the decoder alone. -/
theorem onBeat_of_decodePair_eq {b : Beat} {r0 r1 : Byte} (h : decodePair r0 r1 = decodePair b.raw0 b.raw1)
    (s : State) : onBeat { b with raw0 := r0, raw1 := r1 } s = onBeat b s := by
  simp only [onBeat, consumeWord, h]
  rfl

/-- Settles O4: what a beat does with its bytes it does with the decoded instruction, and the decoder sees the
stripped pair and loses none of it. -/
theorem parityTakesNoPart : Obligations.ParityTakesNoPart :=
  ⟨stripParity_setWidth, fun _ _ _ _ => decodePair_eq_iff,
    fun _ _ _ s h0 h1 => onBeat_of_decodePair_eq (decodePair_eq_iff.mpr ⟨h0, h1⟩) s⟩

end Sys2Proof.Proofs
end

section
/-! The ten classes against 30_encoding.md R58. -/

namespace Sys2Proof.Proofs

open Sys2Proof.Claims

/-- R58's condition of each class on the two stripped codes as numbers. -/
def ClassCond (b0 b1 : Nat) : WordClass → Prop
  | .nul => b0 = 0 ∧ b1 = 0
  | .fln => b0 < 0x20 ∧ b0 % 8 = 4 ∧ b1 = 0x2F
  | .flr => b0 < 0x20 ∧ b0 % 8 = 4 ∧ (b1 = 0x25 ∨ b1 = 0x26 ∨ b1 = 0x27 ∨ b1 = 0x2C ∨ b1 = 0x2D)
  | .spc => b0 < 0x20 ∧ b0 % 8 = 1 ∧ 0x30 ≤ b1 ∧ b1 < 0x40
  | .ext => b0 < 0x20 ∧ (b0 % 8 = 2 ∨ b0 % 8 = 3) ∧ 0x20 ≤ b1 ∧ b1 < 0x40
  | .tab => b0 < 0x20 ∧ b0 % 8 = 7 ∧ (b1 = 0x21 ∨ b1 = 0x22 ∨ b1 = 0x23)
  | .pac => b0 < 0x20 ∧ 0x40 ≤ b1
  | .mid => b0 < 0x20 ∧ ¬(b0 = 0 ∧ b1 = 0) ∧ b1 < 0x40 ∧
      ¬(b0 % 8 = 4 ∧ b1 ∈ [0x25, 0x26, 0x27, 0x2C, 0x2D, 0x2F]) ∧ ¬(b0 % 8 = 1 ∧ 0x30 ≤ b1) ∧
      ¬((b0 % 8 = 2 ∨ b0 % 8 = 3) ∧ 0x20 ≤ b1) ∧ ¬(b0 % 8 = 7 ∧ b1 ∈ [0x21, 0x22, 0x23])
  | .chr2 => 0x20 ≤ b0 ∧ 0x20 ≤ b1
  | .chr1 => 0x20 ≤ b0 ∧ b1 < 0x20

/-- No two conditions are met by the same codes: the rows with a basecode differ in it or in the second code, PAC is at
or above 0x40 and they are below, and MID shuts out what the rows before it take. -/
theorem ClassCond.unique {b0 b1 : Nat} {k l : WordClass} (hk : ClassCond b0 b1 k) (hl : ClassCond b0 b1 l) :
    k = l := by
  cases k <;> cases l <;> grind [ClassCond]

theorem codeBase_toNat (b0 : Code) : (codeBase b0).toNat = b0.toNat % 8 := by
  simp [codeBase]

variable {w : ByteWord}

/-- A control code meets the condition of the first row that takes it; the branches are numbered as in
`codes_decodeControl`, 1 being FLN. MID has only the rows before it to go by, whose failed tests are read as numbers. -/
theorem classCond_decodeControl (h0 : w.b0 < 0x20) (hn : ¬(w.b0 = 0 ∧ w.b1 = 0)) :
    ClassCond w.b0.toNat w.b1.toNat (decodeControl w).wordClass := by
  have hlt : w.b0.toNat < 0x20 := h0
  have hbase {n : BitVec 3} (h : codeBase w.b0 = n) : w.b0.toNat % 8 = n.toNat := h ▸ (codeBase_toNat w.b0).symm
  fun_cases decodeControl w
  case case1 h => exact ⟨hlt, hbase h.1, congrArg BitVec.toNat h.2⟩
  case case7 h => exact ⟨hlt, hbase h.1, h.2⟩
  case case8 h => exact ⟨hlt, h.1.imp hbase hbase, h.2⟩
  case case12 h => exact ⟨hlt, h⟩
  case case13 =>
    have hbc := codeBase_toNat w.b0
    simp only [← BitVec.toNat_inj, BitVec.le_def, BitVec.lt_def, BitVec.ofNat_eq_ofNat, BitVec.toNat_ofNat] at *
    grind [ClassCond, Instr.wordClass]
  all_goals
    next h => exact ⟨hlt, hbase h.1, by simp [h.2]⟩

theorem classCond_decodeDisplayable (h0 : 0x20 ≤ w.b0) :
    ClassCond w.b0.toNat w.b1.toNat (decodeDisplayable w).wordClass := by
  fun_cases decodeDisplayable w
  case case1 h => exact ⟨h0, h⟩
  case case2 h => exact ⟨h0, BitVec.not_le.mp h⟩

/-- Every pair of codes meets the condition of the class it decodes to. -/
theorem classCond_decodeCodes (w : ByteWord) : ClassCond w.b0.toNat w.b1.toNat (decodeCodes w).wordClass := by
  obtain ⟨h0, h1, hd⟩ | ⟨h0, hn, hd⟩ | ⟨h0, hd⟩ := decodeCodes_cases w <;> rw [hd]
  · exact ⟨congrArg BitVec.toNat h0, congrArg BitVec.toNat h1⟩
  · exact classCond_decodeControl h0 hn
  · exact classCond_decodeDisplayable h0

theorem classCond_decodePair (r0 r1 : Byte) : ClassCond (code0 r0) (code1 r1) (decodePair r0 r1).wordClass := by
  rw [← stripPair_b0_toNat r0 r1, ← stripPair_b1_toNat r0 r1]
  exact classCond_decodeCodes (stripPair r0 r1)

theorem wordClass_eq_iff {r0 r1 : Byte} {k : WordClass} :
    (decodePair r0 r1).wordClass = k ↔ ClassCond (code0 r0) (code1 r1) k :=
  ⟨fun h => h ▸ classCond_decodePair r0 r1, fun h => (classCond_decodePair r0 r1).unique h⟩

/-- The catch-all of R58 row 8: a control code of none of the six classes before it. -/
theorem ClassCond.eq_mid_iff {b0 b1 : Nat} {k : WordClass} (h : ClassCond b0 b1 k) :
    k = .mid ↔ (b0 < 0x20 ∧ ¬(b0 = 0 ∧ b1 = 0)) ∧
      k ≠ .fln ∧ k ≠ .flr ∧ k ≠ .spc ∧ k ≠ .ext ∧ k ≠ .tab ∧ k ≠ .pac := by
  constructor
  · rintro rfl
    obtain ⟨hlt, hn, -⟩ := h
    exact ⟨⟨hlt, hn⟩, by decide⟩
  · rintro ⟨⟨hlt, hn⟩, hfln, hflr, hspc, hext, htab, hpac⟩
    cases k
    case mid => rfl
    case nul => exact absurd h hn
    case chr2 => exact absurd h.1 (Nat.not_le.mpr hlt)
    case chr1 => exact absurd h.1 (Nat.not_le.mpr hlt)
    all_goals contradiction

/-- Settles O6: the condition of the decoded class always holds, and no two conditions hold together. -/
theorem classConditions : Obligations.ClassConditions := fun r0 r1 =>
  ⟨wordClass_eq_iff, wordClass_eq_iff, wordClass_eq_iff, wordClass_eq_iff, wordClass_eq_iff, wordClass_eq_iff,
    wordClass_eq_iff, (classCond_decodePair r0 r1).eq_mid_iff, wordClass_eq_iff, wordClass_eq_iff⟩

end Sys2Proof.Proofs
end

section
/-! The values derived from a word against 30_encoding.md R56. -/

namespace Sys2Proof.Proofs

open Sys2Proof.Machine Sys2Proof.Claims

theorem codeChannel_eq_ch2_iff : ∀ b0 : Code, codeChannel b0 = .ch2 ↔ b0.toNat / 8 % 2 = 1 := by
  decide

theorem preSpaces_of_pac : ∀ b1 : Code, 0x40 ≤ b1.toNat →
    preSpaces b1 = if b1.toNat / 16 % 2 = 1 then 4 * (b1.toNat / 2 % 8) else 0 := by
  decide

variable {r0 r1 : Byte} {i : Instr}

theorem codes_of_decodePair_eq (h : decodePair r0 r1 = i) : codes i = stripPair r0 r1 :=
  h ▸ codes_decodeCodes _

theorem code0_of_decodePair_eq (h : decodePair r0 r1 = i) : code0 r0 = (codes i).b0.toNat := by
  rw [codes_of_decodePair_eq h, stripPair_b0_toNat]

theorem code1_of_decodePair_eq (h : decodePair r0 r1 = i) : code1 r1 = (codes i).b1.toNat := by
  rw [codes_of_decodePair_eq h, stripPair_b1_toNat]

theorem specIndex_of_decodePair {x : BitVec 1} {c : Channel} {i : BitVec 4} (h : decodePair r0 r1 = .spc x c i) :
    i.toNat = code1 r1 - 0x30 ∧ 0x30 ≤ code1 r1 ∧ code1 r1 < 0x40 := by
  have h1 : code1 r1 = 0x30 + i.toNat := (code1_of_decodePair_eq h).trans (toNat_append_add 3#3 i)
  have hi := i.isLt
  omega

theorem extIndex_of_decodePair {x : BitVec 1} {c : Channel} {k : BitVec 1} {j : BitVec 5}
    (h : decodePair r0 r1 = .ext x c k j) :
    (extIndex k j).toNat = (code0 r0 % 8 - 2) * 0x20 + (code1 r1 - 0x20) ∧
      2 ≤ code0 r0 % 8 ∧ 0x20 ≤ code1 r1 := by
  have hbase : code0 r0 % 8 = (1#2 ++ k).toNat :=
    code0_of_decodePair_eq h ▸ controlCode_toNat_mod_eight x c _
  have h0 : code0 r0 % 8 = 2 + k.toNat := hbase.trans (toNat_append_add 1#2 k)
  have h1 : code1 r1 = 0x20 + j.toNat := (code1_of_decodePair_eq h).trans (toNat_append_add 1#2 j)
  rw [extIndex_toNat]
  omega

theorem tabCount_of_decodePair (h : (decodePair r0 r1).wordClass = .tab) :
    tabCount (stripParity r1) = code1 r1 - 0x20 ∧ 1 ≤ code1 r1 - 0x20 ∧ code1 r1 - 0x20 ≤ 3 := by
  obtain ⟨-, -, h1⟩ := wordClass_eq_iff.mp h
  exact ⟨congrArg (· - 0x20) (stripParity_toNat r1), by omega, by omega⟩

/-- Settles O8: the indexes are read off the fields the codes are assembled from, the TAB count off the condition of
its class, and the rest off the bits of the codes. -/
theorem derivedValues : Obligations.DerivedValues := by
  intro r0 r1
  have h0 := stripPair_b0_toNat r0 r1
  have h1 := stripPair_b1_toNat r0 r1
  refine ⟨h0, h1, ?_, ?_, fun _ _ _ => specIndex_of_decodePair, fun _ _ _ _ => extIndex_of_decodePair,
    tabCount_of_decodePair, ?_, fun _ => rfl⟩
  · exact h0 ▸ codeChannel_eq_ch2_iff _
  · exact h0 ▸ codeBase_toNat _
  · exact h1 ▸ preSpaces_of_pac _

end Sys2Proof.Proofs
end

section
/-! The classifier against 40_front_end.md R71. -/

namespace Sys2Proof.Proofs

open Sys2Proof.Claims

variable {w : ByteWord}

theorem classify_eq_null_iff : classify w = .null ↔ w.b0.toNat = 0 ∧ w.b1.toNat = 0 := by
  fun_cases classify w <;> simp only [reduceCtorEq, true_iff, false_iff] <;> bv_omega

theorem classify_eq_control_iff :
    classify w = .control ↔ w.b0.toNat < 0x20 ∧ ¬(w.b0.toNat = 0 ∧ w.b1.toNat = 0) := by
  fun_cases classify w <;> simp only [reduceCtorEq, true_iff, false_iff] <;> bv_omega

theorem classify_eq_displayable_iff : classify w = .displayable ↔ 0x20 ≤ w.b0.toNat := by
  fun_cases classify w <;> simp only [reduceCtorEq, true_iff, false_iff] <;> bv_omega

theorem kind_decodeControl (w : ByteWord) : (decodeControl w).wordClass.kind = .control := by
  fun_cases decodeControl w <;> rfl

theorem kind_decodeDisplayable (w : ByteWord) : (decodeDisplayable w).wordClass.kind = .displayable := by
  fun_cases decodeDisplayable w <;> rfl

/-- The classifier picks the rows, so the class is of the kind it gave. -/
theorem kind_decodeCodes (w : ByteWord) : (decodeCodes w).wordClass.kind = classify w := by
  unfold decodeCodes
  cases classify w with
  | null => rfl
  | control => exact kind_decodeControl w
  | displayable => exact kind_decodeDisplayable w

/-- Settles O5: each kind is one branch of the classifier, read as numbers, and the decoder's rows under a branch are
all of its kind. -/
theorem classifierTellsThreeKinds : Obligations.ClassifierTellsThreeKinds := by
  intro r0 r1
  rw [← stripPair_b0_toNat r0 r1, ← stripPair_b1_toNat r0 r1]
  exact ⟨classify_eq_null_iff, classify_eq_control_iff, classify_eq_displayable_iff, kind_decodeCodes _⟩

end Sys2Proof.Proofs
end

section
/-! Null words against 40_front_end.md R73. -/

namespace Sys2Proof.Proofs

open Sys2Proof.Machine Sys2Proof.Claims

theorem wordClass_eq_nul_iff {i : Instr} : i.wordClass = .nul ↔ i = .nul := by
  cases i <;> simp [Instr.wordClass]

theorem decodePair_eq_nul_iff {r0 r1 : Byte} : decodePair r0 r1 = .nul ↔ code0 r0 = 0 ∧ code1 r1 = 0 :=
  wordClass_eq_nul_iff.symm.trans wordClass_eq_iff

theorem onBeat_nullWord {b : Beat} {s : State} (hb : IsNullWord b) (hs : s.halted = false) :
    onBeat b s = .next { s with tch := b.tch, port := none, consumed := s.consumed + 1 } := by
  obtain ⟨⟨hrst, hhalt, hvalid⟩, hcodes⟩ := hb
  rw [onBeat_word hrst hhalt hvalid hs, decodePair_eq_nul_iff.mpr hcodes, exec_nul]

/-! No operation looks at the ghost counter or the port, and a beat sets `TCH` before it does anything else: from states
that are alike every operation ends alike. -/

/-- Two runs that end alike both complete or are both refused by one name. -/
theorem endAlike_cases {o p : StepResult} (h : EndAlike o p) :
    (∃ s t, o = .next s ∧ p = .next t ∧ EndAlike (.next s) (.next t)) ∨ ∃ r, o = .refused r ∧ p = .refused r := by
  unfold EndAlike at h
  split at h
  next s t => exact .inl ⟨s, t, rfl, rfl, h⟩
  next r q => exact .inr ⟨r, rfl, h ▸ rfl⟩
  next => exact h.elim

section

variable {s t : State} (h : EndAlike (.next s) (.next t))
include h

theorem setBuffer_alike (buf : List CapChar) : EndAlike (setBuffer buf s) (setBuffer buf t) := by
  obtain ⟨hcfg, hlast, hach, -, hinputs, hhalted, hsink⟩ := h
  have hroom : s.cfg.holds buf.length = t.cfg.holds buf.length := by rw [hcfg]
  unfold setBuffer
  rw [hroom]
  split
  · exact ⟨hcfg, hlast, hach, rfl, hinputs, hhalted, hsink⟩
  · rfl

theorem flushBuffer_alike (nl flush : Bool) : EndAlike (flushBuffer nl flush s) (flushBuffer nl flush t) := by
  obtain ⟨hcfg, hlast, hach, hcbuf, hinputs, hhalted, hsink⟩ := h
  exact ⟨hcfg, hlast, hach, rfl, hinputs, hhalted, by simp [hcbuf, hsink]⟩

theorem action_alike (i : Instr) : EndAlike (action i s) (action i t) := by
  obtain ⟨hcfg, -, -, hcbuf, -⟩ := id h
  cases i
  case fln | flr25 | flr26 | flr27 | flr2C | flr2D => exact flushBuffer_alike h _ _
  case nul | chr1 | chr2 => exact h
  all_goals
    simp only [action, hcfg, hcbuf]
    exact setBuffer_alike h _

theorem controlStep_alike (htch : s.tch = t.tch) (w : ByteWord) (c : Channel) (i : Instr) :
    EndAlike (controlStep w c (action i) s) (controlStep w c (action i) t) := by
  obtain ⟨hcfg, hlast, -, hrest⟩ := h
  have hnoted : EndAlike (.next { s with ach := c, last := some w }) (.next { t with ach := c, last := some w }) :=
    ⟨hcfg, rfl, rfl, hrest⟩
  have hacts : (s.last ≠ some w ∧ c = s.tch) ↔ (t.last ≠ some w ∧ c = t.tch) := by rw [hlast, htch]
  by_cases ha : t.last ≠ some w ∧ c = t.tch
  · rw [controlStep_acted ha, controlStep_acted (hacts.mpr ha)]
    exact action_alike hnoted i
  · rw [controlStep_dropped ha, controlStep_dropped (mt hacts.mp ha)]
    exact hnoted

theorem displayStep_alike (htch : s.tch = t.tch) (w : ByteWord) (shown : List Code) :
    EndAlike (displayStep w shown s) (displayStep w shown t) := by
  obtain ⟨hcfg, -, hach, hcbuf, hrest⟩ := h
  have hnoted : EndAlike (.next { s with last := some w }) (.next { t with last := some w }) :=
    ⟨hcfg, rfl, hach, hcbuf, hrest⟩
  have hgate : s.ach = s.tch ↔ t.ach = t.tch := by rw [hach, htch]
  by_cases hg : t.ach = t.tch
  · have hbuf : s.cbuf ++ shown.map (readBasic s.cfg) = t.cbuf ++ shown.map (readBasic t.cfg) := by rw [hcbuf, hcfg]
    rw [displayStep_open hg, displayStep_open (hgate.mpr hg), hbuf]
    exact setBuffer_alike hnoted _
  · rw [displayStep_closed hg, displayStep_closed (mt hgate.mp hg)]
    exact hnoted

/-- An instruction sees the architectural state, the parameters and `TCH`, and nothing else (10_state.md R10, R17). -/
theorem exec_alike (htch : s.tch = t.tch) (i : Instr) : EndAlike (exec i s) (exec i t) := by
  cases hc : i.channel? with
  | some c =>
    rw [exec_control hc, exec_control hc]
    exact controlStep_alike h htch _ c i
  | none =>
    cases i <;> simp only [Instr.channel?, reduceCtorEq] at hc
    case nul => exact h
    case chr1 => exact displayStep_alike h htch _ _
    case chr2 => exact displayStep_alike h htch _ _

theorem consumeWord_alike (htch : s.tch = t.tch) (r0 r1 : Byte) :
    EndAlike (consumeWord r0 r1 s) (consumeWord r0 r1 t) :=
  exec_alike (s := { s with consumed := s.consumed + 1 }) (t := { t with consumed := t.consumed + 1 }) h htch _

theorem onBeat_alike (b : Beat) : EndAlike (onBeat b s) (onBeat b t) := by
  have hpins : EndAlike (.next (latchPins b s)) (.next (latchPins b t)) := h
  obtain ⟨hcfg, hlast, hach, hcbuf, hinputs, hhalted, hsink⟩ := h
  unfold onBeat
  rw [hhalted]
  split_ifs
  · exact ⟨hcfg, rfl, rfl, rfl, hinputs, rfl, rfl⟩
  · exact ⟨hcfg, hlast, hach, hcbuf, hinputs, rfl, hsink⟩
  · rfl
  · exact consumeWord_alike hpins rfl _ _
  · exact hpins

end

theorem feed_alike {s t : State} (h : EndAlike (.next s) (.next t)) (bs : List Beat) :
    EndAlike (feed bs s) (feed bs t) := by
  induction bs generalizing s t with
  | nil => exact h
  | cons b bs ih =>
    obtain ⟨s', t', hs, ht, h'⟩ | ⟨r, hs, ht⟩ := endAlike_cases (onBeat_alike h b)
    · simpa only [feed, hs, ht] using ih h'
    · simp only [feed, hs, ht, EndAlike]

/-- Null words before a list of beats are as good as none, as long as the run has not ended. -/
theorem feed_nullWords_append {s t : State} {nulls : List Beat} (hnull : ∀ b ∈ nulls, IsNullWord b)
    (ht : t.halted = false) (h : EndAlike (.next t) (.next s)) (ys : List Beat) :
    EndAlike (feed (nulls ++ ys) t) (feed ys s) := by
  induction nulls generalizing t with
  | nil => exact feed_alike h ys
  | cons b bs ih =>
    obtain ⟨hb, hbs⟩ := List.forall_mem_cons.mp hnull
    simp only [List.cons_append, feed, onBeat_nullWord hb ht]
    exact ih hbs ht h

/-- Settles O27: a null word moves nothing but the ghost counter, `TCH` and the port, and what comes after it ends alike
whatever these were. -/
theorem nullWordsChangeNothing : Obligations.NullWordsChangeNothing := by
  refine ⟨fun _ _ => decodePair_eq_nul_iff, exec_nul, fun xs nulls ys s t hxs ht hnull => ?_⟩
  rw [List.append_assoc, feed_append, feed_append xs ys, hxs]
  exact feed_nullWords_append hnull ht ⟨rfl, rfl, rfl, rfl, rfl, rfl, rfl⟩ ys

end Sys2Proof.Proofs
end

section
/-! The control-code path against 41_control_dispatch.md R80 to R84: the channel of a code, and what a code leaves when
it is dropped, when it flushes and when it writes text. -/

namespace Sys2Proof.Proofs

open Sys2Proof.Machine Sys2Proof.Claims

variable {i : Instr} {c : Channel} {s t : State}

/-- An instruction is addressed to a channel exactly when it is a control code, and then to the one in its first
code. -/
theorem channel?_eq_codeChannel (i : Instr) :
    i.channel? = if i.wordClass.kind = .control then some (codeChannel (codes i).b0) else none := by
  cases hc : i.channel? with
  | some c =>
    obtain ⟨-, hkind, hch⟩ := control_facts hc
    rw [if_pos hkind, hch]
  | none =>
    cases i <;> simp only [Instr.channel?, reduceCtorEq] at hc <;> rfl

/-- Bit 3 of a first code read as a number. -/
theorem codeChannel_eq (b0 : Code) : codeChannel b0 = if b0.toNat / 8 % 2 = 1 then .ch2 else .ch1 := by
  split
  next h => exact (codeChannel_eq_ch2_iff b0).mpr h
  next h =>
    cases hb : codeChannel b0 with
    | ch1 => rfl
    | ch2 => exact absurd ((codeChannel_eq_ch2_iff b0).mp hb) h

/-- `ACH` after an instruction is the channel the instruction carries, and the old `ACH` if it carries none. -/
theorem ach_of_ran (h : Ran i s t) : t.ach = i.channel?.getD s.ach := by
  cases h
  case null h => rw [h]; rfl
  all_goals
    rw [‹i.channel? = _›]
    rfl

theorem channel?_decodePair (r0 r1 : Byte) :
    (decodePair r0 r1).channel?
      = if code0 r0 < 0x20 ∧ ¬(code0 r0 = 0 ∧ code1 r1 = 0) then
          some (if code0 r0 / 8 % 2 = 1 then .ch2 else .ch1)
        else none := by
  have hkind : (decodePair r0 r1).wordClass.kind = classify (stripPair r0 r1) := kind_decodeCodes _
  rw [channel?_eq_codeChannel, codes_of_decodePair_eq rfl, codeChannel_eq]
  simp only [hkind, classify_eq_control_iff, stripPair_b0_toNat, stripPair_b1_toNat]

/-- Settles O28: the channel is read off the first code exactly for the control kind, and every way a control code can
complete writes `ACH`. -/
theorem channelIsBit3 : Obligations.ChannelIsBit3 := by
  refine ⟨channel?_decodePair, fun i c s t hc h => ?_⟩
  rw [ach_of_ran (exec_next_cases h), hc, Option.getD_some]

section

variable (hc : i.channel? = some c)
include hc

theorem exec_eq_dropped (h : ¬ Acts (codes i) c s) : exec i s = .next (dropped (codes i) c s) :=
  (exec_control hc s).trans (controlStep_dropped h)

theorem exec_eq_action (h : Acts (codes i) c s) : exec i s = action i (dropped (codes i) c s) :=
  (exec_control hc s).trans (controlStep_acted h)

theorem exec_eq_flushed {nl flush : Bool} (hf : action i = flushBuffer nl flush) (h : Acts (codes i) c s) :
    exec i s = .next (flushed (codes i) c nl flush s) := by
  rw [exec_eq_action hc h, hf]
  rfl

theorem exec_eq_written (h1 : i.wordClass ≠ .fln) (h2 : i.wordClass ≠ .flr) (h : Acts (codes i) c s)
    (room : s.cfg.holds ((keptOf i s.cbuf).length + (textOf s.cfg i).length) = true) :
    exec i s = .next (written (codes i) c (keptOf i s.cbuf ++ textOf s.cfg i) s) := by
  rw [← List.length_append] at room
  rw [exec_eq_action hc h, action_text hc h1 h2]
  exact setBuffer_of_holds room

end

/-- Settles O29: a code for another channel is not acted on. -/
theorem otherChannelIsDropped : Obligations.OtherChannelIsDropped :=
  fun _ _ _ hc hne => exec_eq_dropped hc (fun ha => hne ha.2)

end Sys2Proof.Proofs
end

section
/-! The flushes FLN and FLR against 41_control_dispatch.md R86 and R87. -/

namespace Sys2Proof.Proofs

open Sys2Proof.Machine Sys2Proof.Claims

variable {i : Instr} {x : BitVec 1} {c : Channel}

theorem sinkChars_flushed (w : ByteWord) (c : Channel) (nl flush : Bool) (s : State) :
    sinkChars (flushed w c nl flush s).sink
      = sinkChars s.sink ++ s.cbuf ++ (if nl then [newlineChar] else []) := by
  simp [sinkChars, flushed]

theorem wordClass_eq_fln_iff : i.wordClass = .fln ↔ ∃ x c, i = .fln x c := by
  cases i <;> simp [Instr.wordClass]

/-- Settles O34: FLN's word by its class, its action a flush with `nl`. -/
theorem flnEmitsWithNewline : Obligations.FlnEmitsWithNewline :=
  ⟨fun _ _ => wordClass_eq_fln_iff.symm.trans wordClass_eq_iff,
    fun _ _ _ => ⟨exec_eq_flushed rfl rfl, exec_eq_dropped rfl, sinkChars_flushed _ _ true false _⟩⟩

theorem wordClass_eq_flr_iff : i.wordClass = .flr ↔ ∃ x c, i ∈ flrForms x c := by
  cases i <;> simp [Instr.wordClass, flrForms]

theorem flrForms_codes_nodup (x : BitVec 1) (c : Channel) : ((flrForms x c).map codes).Nodup := by
  simp [flrForms, codes]

/-- The five FLR instructions differ in their codes alone. -/
theorem flush_of_mem_flrForms (h : i ∈ flrForms x c) :
    i.channel? = some c ∧ action i = flushBuffer false true := by
  simp only [flrForms, List.mem_cons, List.not_mem_nil, or_false] at h
  obtain rfl | rfl | rfl | rfl | rfl := h <;> exact ⟨rfl, rfl⟩

/-- Settles O35: the five words by their class, the action of each a flush without `nl`. -/
theorem flrEmitsWithoutNewline : Obligations.FlrEmitsWithoutNewline := by
  refine ⟨fun _ _ => wordClass_eq_flr_iff.symm.trans wordClass_eq_iff,
    fun x c s => ⟨flrForms_codes_nodup x c, fun i hi => ?_⟩⟩
  obtain ⟨hc, hact⟩ := flush_of_mem_flrForms hi
  refine ⟨exec_eq_flushed hc hact, exec_eq_dropped hc, ?_⟩
  rw [sinkChars_flushed]
  exact List.append_nil _

end Sys2Proof.Proofs
end

section
/-! The text control codes SPC, TAB, PAC and MID against 41_control_dispatch.md R88 and R90 to R93. -/

namespace Sys2Proof.Proofs

open Sys2Proof.Machine Sys2Proof.Claims

variable {i : Instr} {x : BitVec 1} {c : Channel}

theorem wordClass_eq_spc_iff : i.wordClass = .spc ↔ ∃ x c n, i = .spc x c n := by
  cases i <;> simp [Instr.wordClass]

theorem decodePair_eq_spc_iff {r0 r1 : Byte} :
    (∃ x c n, decodePair r0 r1 = .spc x c n ∧ n.toNat = code1 r1 - 0x30) ↔
      (decodePair r0 r1).wordClass = .spc := by
  rw [wordClass_eq_spc_iff]
  constructor
  · rintro ⟨x, c, n, h, -⟩
    exact ⟨x, c, n, h⟩
  · rintro ⟨x, c, n, h⟩
    exact ⟨x, c, n, h, (specIndex_of_decodePair h).1⟩

/-- Settles O36: SPC's word by its class and its index by its second code; its text is the one entry of `SPEC`. -/
theorem spcAppendsSpecial : Obligations.SpcAppendsSpecial :=
  ⟨fun _ _ => decodePair_eq_spc_iff.trans wordClass_eq_iff,
    fun _ _ _ _ => ⟨exec_eq_written rfl nofun nofun, exec_eq_dropped rfl⟩⟩

/-- A TAB form has its class, its channel, its count in its second code, and that many spaces for a text. -/
theorem tab_of_mem_tabForms {p : Instr × Nat} (h : p ∈ tabForms x c) :
    p.1.wordClass = .tab ∧ p.1.channel? = some c ∧ p.2 = (codes p.1).b1.toNat - 0x20 ∧ keptOf p.1 = id ∧
      ∀ cfg, textOf cfg p.1 = List.replicate p.2 spaceChar := by
  simp only [tabForms, List.mem_cons, List.not_mem_nil, or_false] at h
  obtain rfl | rfl | rfl := h <;> exact ⟨rfl, rfl, rfl, rfl, fun _ => rfl⟩

theorem exists_mem_tabForms (h : i.wordClass = .tab) : ∃ x c, ∃ p ∈ tabForms x c, i = p.1 := by
  cases i <;> simp [Instr.wordClass, tabForms] at h ⊢

theorem decodePair_mem_tabForms_iff {r0 r1 : Byte} :
    (∃ x c, ∃ p ∈ tabForms x c, decodePair r0 r1 = p.1 ∧ p.2 = code1 r1 - 0x20) ↔
      (decodePair r0 r1).wordClass = .tab := by
  constructor
  · rintro ⟨x, c, p, hp, h, -⟩
    exact h ▸ (tab_of_mem_tabForms hp).1
  · intro h
    obtain ⟨x, c, p, hp, hi⟩ := exists_mem_tabForms h
    obtain ⟨-, -, hcount, -⟩ := tab_of_mem_tabForms hp
    exact ⟨x, c, p, hp, hi, by rw [hcount, code1_of_decodePair_eq hi]⟩

/-- Settles O39: the three words by their class, each count by its second code, each text that many spaces. -/
theorem tabAppendsSpaces : Obligations.TabAppendsSpaces := by
  refine ⟨fun _ _ => decodePair_mem_tabForms_iff.trans wordClass_eq_iff, fun x c s p hp => ?_⟩
  obtain ⟨hclass, hc, -, hkept, htext⟩ := tab_of_mem_tabForms hp
  refine ⟨fun ha room => ?_, exec_eq_dropped hc⟩
  have hrun := exec_eq_written hc (by simp [hclass]) (by simp [hclass]) ha
  rw [hkept, htext, List.length_replicate] at hrun
  exact hrun room

theorem wordClass_eq_pac_iff : i.wordClass = .pac ↔ ∃ x c bc h5 h4 k u, i = .pac x c bc h5 h4 k u := by
  cases i <;> simp [Instr.wordClass]

/-- R92 by the nibbles: a high nibble of 5 or 7 asks for four spaces for every two of the low nibble. -/
theorem preSpaces_eq_nibbles : ∀ b1 : Code, preSpaces b1
    = if b1.toNat / 16 % 8 = 5 ∨ b1.toNat / 16 % 8 = 7 then b1.toNat % 16 / 2 * 4 else 0 := by
  decide

theorem preSpaces_mem : ∀ b1 : Code, preSpaces b1 ∈ [0, 4, 8, 12, 16, 20, 24, 28] := by
  decide

/-- The underline bit plays no part in the indentation. -/
theorem preSpaces_xor_one : ∀ b1 : Code, preSpaces (b1 ^^^ 1) = preSpaces b1 := by
  decide

/-- R92 by the bits: `h4` asks for the indentation and `k` counts it in fours. -/
theorem preSpaces_pacCode : ∀ (h5 h4 : BitVec 1) (k : BitVec 3) (u : BitVec 1),
    preSpaces (1#1 ++ h5 ++ h4 ++ k ++ u) = if h4 = 1 then 4 * k.toNat else 0 := by
  decide

/-- Settles O40: PAC's word by its class; its text is a newline and the indentation its second code asks for. -/
theorem pacAppendsNewlineAndIndent : Obligations.PacAppendsNewlineAndIndent := by
  refine ⟨fun _ _ => wordClass_eq_pac_iff.symm.trans wordClass_eq_iff,
    fun b1 _ => ⟨preSpaces_eq_nibbles b1, preSpaces_mem b1, preSpaces_xor_one b1⟩,
    fun x c bc h5 h4 k u s => ?_⟩
  intro i n
  have hn : preSpaces (codes i).b1 = n := preSpaces_pacCode h5 h4 k u
  have htext : textOf s.cfg i = newlineChar :: List.replicate n spaceChar := hn ▸ rfl
  refine ⟨hn, fun ha room => ?_, exec_eq_dropped rfl⟩
  have hrun := exec_eq_written (i := i) rfl nofun nofun ha
  rw [htext, List.length_cons, List.length_replicate, Nat.add_comm n, ← Nat.add_assoc] at hrun
  exact hrun room

theorem wordClass_eq_mid_iff : i.wordClass = .mid ↔ ∃ x c bc d, i = .mid x c bc d := by
  cases i <;> simp [Instr.wordClass]

/-- Settles O41: MID's word by its class, the complement of the classes before it; its text is one space. -/
theorem midAppendsOneSpace : Obligations.MidAppendsOneSpace :=
  ⟨fun _ _ => (wordClass_eq_mid_iff.symm.trans wordClass_eq_iff).trans (and_congr_right fun _ => and_left_comm),
    fun _ _ _ _ _ => ⟨exec_eq_written rfl nofun nofun, exec_eq_dropped rfl⟩⟩

end Sys2Proof.Proofs
end

section
/-! The displayable pairs CHR2 and CHR1 against 42_displayable.md R102 and R103. -/

namespace Sys2Proof.Proofs

open Sys2Proof.Machine Sys2Proof.Claims

variable {i : Instr} {s : State}

/-- The displayable path with the gate open and room for what is shown. -/
theorem displayStep_of_holds {w : ByteWord} {shown : List Code} (hg : s.ach = s.tch)
    (room : s.cfg.holds (s.cbuf.length + shown.length) = true) :
    displayStep w shown s
      = .next { s with last := some w, cbuf := s.cbuf ++ shown.map (readBasic s.cfg) } := by
  rw [displayStep_open hg]
  exact setBuffer_of_holds (by rwa [List.length_append, List.length_map])

theorem wordClass_eq_chr2_iff : i.wordClass = .chr2 ↔ ∃ a b, i = .chr2 a b := by
  cases i <;> simp [Instr.wordClass]

/-- Settles O42: CHR2's word by its class, and the displayable path with both codes shown; that path
never asks for `LAST`, so an equal pair acts again. -/
theorem chr2AppendsTwo : Obligations.Chr2AppendsTwo :=
  ⟨fun _ _ => wordClass_eq_chr2_iff.symm.trans wordClass_eq_iff,
    fun a b _ => ⟨displayStep_of_holds (shown := [a, b]), displayStep_closed⟩⟩

theorem wordClass_eq_chr1_iff : i.wordClass = .chr1 ↔ ∃ a d, i = .chr1 a d := by
  cases i <;> simp [Instr.wordClass]

/-- The filler is the second code of a CHR1 word, its two high bits clear. -/
theorem codes_chr1 (a : Code) (d : BitVec 5) : codes (.chr1 a d) = ⟨a, d.setWidth 7⟩ :=
  congrArg (ByteWord.mk a) (BitVec.setWidth_eq_append (by decide)).symm

/-- Settles O43: CHR1's word by its class, and the displayable path with the one code shown; the filler is in `LAST`
alone. -/
theorem chr1AppendsOne : Obligations.Chr1AppendsOne := by
  refine ⟨fun _ _ => wordClass_eq_chr1_iff.symm.trans wordClass_eq_iff, fun a d _ => ?_⟩
  rw [exec_chr1, codes_chr1]
  exact ⟨displayStep_of_holds (shown := [a]), displayStep_closed⟩

end Sys2Proof.Proofs
end

section
/-! The end of the run by `halt` against 60_exceptions.md R124 and R127. -/

namespace Sys2Proof.Proofs

open Sys2Proof.Machine

variable {b : Beat} {s : State}

/-- `halt` ends the run whatever word the beat presents with it (R127). -/
theorem onBeat_halt (hrst : b.rst = false) (hhalt : b.halt = true) (s : State) :
    onBeat b s = .next (endRun (latchPins b s)) := by
  simp [onBeat, hrst, hhalt]

theorem endRun_of_halted (hs : s.halted = true) : endRun s = s := by
  rw [endRun, ← hs]

/-- Once the run has ended, a beat without `rst` is refused for its word or moves only the pins. -/
theorem onBeat_of_halted (hs : s.halted = true) (hrst : b.rst = false) :
    onBeat b s = .refused .afterHalt ∨ onBeat b s = .next (latchPins b s) := by
  obtain ⟨h, -⟩ | ⟨-, -, ho⟩ | ⟨-, -, -, -, ho⟩ | ⟨-, -, -, h, -⟩ | ⟨-, -, -, ho⟩ :=
    onBeat_cases (b := b) (s := s) rfl
  · exact absurd (hrst.symm.trans h) nofun
  · exact .inr (ho.trans (congrArg _ (endRun_of_halted hs)))
  · exact .inl ho
  · exact absurd (hs.symm.trans h) nofun
  · exact .inr ho

/-- Once the run has ended, beats without `rst`, one at the least, are refused for a word among them or leave all but
`TCH` as it was and the port idle. -/
theorem feed_cons_of_halted {bs : List Beat} (hs : s.halted = true) (hrst : ∀ a ∈ b :: bs, a.rst = false) :
    feed (b :: bs) s = .refused .afterHalt ∨ ∃ c, feed (b :: bs) s = .next { s with tch := c, port := none } := by
  induction bs generalizing b s with
  | nil =>
    obtain h | h := onBeat_of_halted hs (hrst b List.mem_cons_self)
    · exact .inl (by rw [feed, h])
    · exact .inr ⟨b.tch, by rw [feed, h]; rfl⟩
  | cons a bs ih =>
    obtain ⟨hb, hbs⟩ := List.forall_mem_cons.mp hrst
    obtain h | h := onBeat_of_halted hs hb
    · exact .inl (by rw [feed, h])
    · rw [feed, h]
      exact ih (s := latchPins b s) hs hbs

/-- Settles O13: a `halt` beat emits nothing and consumes nothing, and what comes after it is fed beat by beat to a block
whose run has ended. -/
theorem haltEndsTheRunWithoutEmission : Obligations.HaltEndsTheRunWithoutEmission := by
  refine ⟨fun s b rest hinputs hrst hhalt => ?_, fun bs s hs hrst => ?_⟩
  · rw [step_cons hinputs, onBeat_halt hrst hhalt]
    rfl
  · cases bs with
    | nil => exact .inr ⟨s.tch, s.port, rfl, absurd rfl⟩
    | cons b bs => exact (feed_cons_of_halted hs hrst).imp_right fun ⟨c, h⟩ => ⟨c, none, h, fun _ => rfl⟩

end Sys2Proof.Proofs
end

section
/-! Decoder, encoder and opcode table against 30_encoding.md R60 and R62: each of the two is the other's inverse. -/

namespace Sys2Proof.Proofs

open Sys2Proof.Machine Sys2Proof.Claims

/-- Settles O1: the decoder evaluated on the words. -/
theorem wordsOfTheTableDecode : Obligations.WordsOfTheTableDecode := by
  unfold Obligations.WordsOfTheTableDecode
  decide

/-! A first code assembled from its fields gives them back (R51). -/

@[simp] theorem codeX_controlCode (x : BitVec 1) (c : Channel) (bc : BitVec 3) : codeX (controlCode x c bc) = x := by
  revert x bc
  cases c <;> decide

@[simp] theorem codeBase_controlCode (x : BitVec 1) (c : Channel) (bc : BitVec 3) :
    codeBase (controlCode x c bc) = bc := by
  revert x bc
  cases c <;> decide

@[simp] theorem extBank_controlCode (x : BitVec 1) (c : Channel) (k : BitVec 1) :
    (controlCode x c (1#2 ++ k)).extractLsb' 0 1 = k := by
  revert x k
  cases c <;> decide

theorem specCode_fields :
    ∀ n : BitVec 4, 0x30#7 ≤ 3#3 ++ n ∧ 3#3 ++ n < 0x40#7 ∧ (3#3 ++ n).extractLsb' 0 4 = n := by
  decide

theorem extCode_fields :
    ∀ j : BitVec 5, 0x20#7 ≤ 1#2 ++ j ∧ 1#2 ++ j < 0x40#7 ∧ (1#2 ++ j).extractLsb' 0 5 = j := by
  decide

theorem extBase_cases : ∀ k : BitVec 1, 1#2 ++ k = 2#3 ∨ 1#2 ++ k = 3#3 := by
  decide

theorem pacCode_fields : ∀ (h5 h4 : BitVec 1) (k : BitVec 3) (u : BitVec 1),
    let d := 1#1 ++ h5 ++ h4 ++ k ++ u
    0x40 ≤ d ∧ d.extractLsb' 5 1 = h5 ∧ d.extractLsb' 4 1 = h4 ∧ d.extractLsb' 1 3 = k ∧ d.extractLsb' 0 1 = u := by
  decide

section

variable {x : BitVec 1} {c : Channel} {bc : BitVec 3} {d : Code}

theorem decodeControl_spc (n : BitVec 4) : decodeControl (codes (.spc x c n)) = .spc x c n := by
  obtain ⟨hlo, hhi, hn⟩ := specCode_fields n
  simp [decodeControl, codes, codeChannel_controlCode, hlo, hhi, hn]

theorem decodeControl_ext (k : BitVec 1) (j : BitVec 5) : decodeControl (codes (.ext x c k j)) = .ext x c k j := by
  obtain ⟨hlo, hhi, hj⟩ := extCode_fields j
  have hbank := extBank_controlCode x c k
  obtain hk | hk := extBase_cases k <;> rw [hk] at hbank <;>
    simp [decodeControl, codes, codeChannel_controlCode, hk, hbank, hlo, hhi, hj]

/-- A second code from 0x40 on is a PAC's whatever the basecode (R58 row 7). -/
theorem decodeControl_of_le (h : 0x40#7 ≤ d) : decodeControl ⟨controlCode x c bc, d⟩
    = .pac x c bc (d.extractLsb' 5 1) (d.extractLsb' 4 1) (d.extractLsb' 1 3) (d.extractLsb' 0 1) := by
  have hlt : ¬ d < 0x40#7 := BitVec.not_lt.mpr h
  have hne : ∀ n < 0x40#7, d ≠ n := fun n hn e => hlt (e ▸ hn)
  simp [decodeControl, codeChannel_controlCode, h, hlt, hne]

theorem decodeControl_pac (h5 h4 : BitVec 1) (k : BitVec 3) (u : BitVec 1) :
    decodeControl (codes (.pac x c bc h5 h4 k u)) = .pac x c bc h5 h4 k u := by
  obtain ⟨hle, hh5, hh4, hk, hu⟩ := pacCode_fields h5 h4 k u
  rw [codes, decodeControl_of_le hle, hh5, hh4, hk, hu]

end

/-- R58 row 8, as the model's check has it. -/
theorem midFree_iff {x : BitVec 1} {c : Channel} {bc : BitVec 3} {d : Code} : midFree x c bc d = true ↔
    d < 0x40 ∧ ¬(x = 0 ∧ c = .ch1 ∧ bc = 0 ∧ d = 0) ∧ ¬(bc = 1 ∧ 0x30 ≤ d) ∧ ¬((bc = 2 ∨ bc = 3) ∧ 0x20 ≤ d) ∧
      ¬(bc = 4 ∧ d ∈ [0x25, 0x26, 0x27, 0x2C, 0x2D, 0x2F]) ∧ ¬(bc = 7 ∧ d ∈ [0x21, 0x22, 0x23]) := by
  simp only [midFree, Bool.and_eq_true, Bool.or_eq_true, Bool.not_eq_true', decide_eq_true_eq, ← Bool.not_eq_true,
    and_assoc]

section

variable {w : ByteWord}

/-- A MID is what the rows before it leave; the branches are numbered as in `codes_decodeControl`. -/
theorem decodeControl_of_midFree (h : midFree (codeX w.b0) (codeChannel w.b0) (codeBase w.b0) w.b1 = true) :
    decodeControl w = .mid (codeX w.b0) (codeChannel w.b0) (codeBase w.b0) w.b1 := by
  obtain ⟨hlt, -, hspc, hext, hflush, htab⟩ := midFree_iff.mp h
  fun_cases decodeControl w
  case case13 => rfl
  case case7 h => exact absurd ⟨h.1, h.2.1⟩ hspc
  case case8 h => exact absurd ⟨h.1, h.2.1⟩ hext
  case case12 h => exact absurd hlt (BitVec.not_lt.mpr h)
  case case9 h | case10 h | case11 h => exact absurd ⟨h.1, by simp [h.2]⟩ htab
  all_goals
    next h => exact absurd ⟨h.1, by simp [h.2]⟩ hflush

theorem decodeControl_mid {x : BitVec 1} {c : Channel} {bc : BitVec 3} {d : Code} (h : midFree x c bc d = true) :
    decodeControl (codes (.mid x c bc d)) = .mid x c bc d := by
  have hmid := decodeControl_of_midFree (w := codes (.mid x c bc d))
  simp only [codes, codeX_controlCode, codeChannel_controlCode, codeBase_controlCode] at hmid
  exact hmid h

theorem decodeCodes_of_control (h : classify w = .control) : decodeCodes w = decodeControl w := by
  rw [decodeCodes, h]

theorem decodeCodes_of_displayable (h : classify w = .displayable) : decodeCodes w = decodeDisplayable w := by
  rw [decodeCodes, h]

end

/-- The architect's lemmas, one for each constructor, in one. -/
theorem classify_codes : ∀ i : Instr, i.wf = true → classify (codes i) = i.wordClass.kind
  | .nul => Laws.ClassifiedKind.nul
  | .fln x c => Laws.ClassifiedKind.fln x c
  | .flr25 x c => Laws.ClassifiedKind.flr25 x c
  | .flr26 x c => Laws.ClassifiedKind.flr26 x c
  | .flr27 x c => Laws.ClassifiedKind.flr27 x c
  | .flr2C x c => Laws.ClassifiedKind.flr2C x c
  | .flr2D x c => Laws.ClassifiedKind.flr2D x c
  | .spc x c i => Laws.ClassifiedKind.spc x c i
  | .ext x c s j => Laws.ClassifiedKind.ext x c s j
  | .tab21 x c => Laws.ClassifiedKind.tab21 x c
  | .tab22 x c => Laws.ClassifiedKind.tab22 x c
  | .tab23 x c => Laws.ClassifiedKind.tab23 x c
  | .pac x c bc h5 h4 k u => Laws.ClassifiedKind.pac x c bc h5 h4 k u
  | .mid x c bc d => Laws.ClassifiedKind.mid x c bc d
  | .chr1 a d => Laws.ClassifiedKind.chr1 a d
  | .chr2 a b => Laws.ClassifiedKind.chr2 a b

theorem chr1Code_fields : ∀ d : BitVec 5, ¬ 0x20 ≤ 0#2 ++ d ∧ (0#2 ++ d).extractLsb' 0 5 = d := by
  decide

/-- Every row of the decoder is the inverse of the row's field layout, on the words the row is left with. -/
theorem decodeCodes_codes (i : Instr) (h : i.wf = true) : decodeCodes (codes i) = i := by
  have hk : classify (codes i) = i.wordClass.kind := classify_codes i h
  cases i
  case nul => rfl
  case chr1 a d =>
    obtain ⟨hlt, hd⟩ := chr1Code_fields d
    rw [decodeCodes_of_displayable hk, codes, decodeDisplayable, if_neg hlt, hd]
  case chr2 a b =>
    have hb : 0x20 ≤ b := by simp_all [Instr.wf]
    rw [decodeCodes_of_displayable hk, codes, decodeDisplayable, if_pos hb]
  all_goals rw [decodeCodes_of_control hk]
  case spc => exact decodeControl_spc _
  case ext => exact decodeControl_ext _ _
  case pac => exact decodeControl_pac _ _ _ _
  case mid => exact decodeControl_mid h
  all_goals simp [decodeControl, codes, codeChannel_controlCode]

/-! The packed word is the two parity bits and the two codes. -/

theorem word_toNat (p0 p1 : BitVec 1) (a b : Code) :
    (p0 ++ a ++ p1 ++ b).toNat = 2 ^ 15 * p0.toNat + 2 ^ 8 * a.toNat + 2 ^ 7 * p1.toNat + b.toNat := by
  have hb : (p0 ++ a ++ p1 ++ b).toNat = 2 ^ 7 * (p0 ++ a ++ p1).toNat + b.toNat := toNat_append_add _ _
  have hp : (p0 ++ a ++ p1).toNat = 2 ^ 1 * (p0 ++ a).toNat + p1.toNat := toNat_append_add _ _
  have ha : (p0 ++ a).toNat = 2 ^ 7 * p0.toNat + a.toNat := toNat_append_add _ _
  omega

theorem stripParity_wordRaw0_toNat (w : Word16) : (stripParity (wordRaw0 w)).toNat = w.toNat / 2 ^ 8 % 128 := by
  rw [stripParity_toNat, wordRaw0, BitVec.extractLsb'_toNat, Nat.shiftRight_eq_div_pow]
  omega

theorem stripParity_wordRaw1_toNat (w : Word16) : (stripParity (wordRaw1 w)).toNat = w.toNat % 128 := by
  rw [stripParity_toNat, wordRaw1, BitVec.extractLsb'_toNat, Nat.shiftRight_zero]
  omega

theorem stripPair_word (p0 p1 : BitVec 1) (a b : Code) :
    stripPair (wordRaw0 (p0 ++ a ++ p1 ++ b)) (wordRaw1 (p0 ++ a ++ p1 ++ b)) = ⟨a, b⟩ := by
  have hw := word_toNat p0 p1 a b
  have ha : stripParity (wordRaw0 (p0 ++ a ++ p1 ++ b)) = a := by
    apply BitVec.eq_of_toNat_eq
    rw [stripParity_wordRaw0_toNat]
    omega
  have hb : stripParity (wordRaw1 (p0 ++ a ++ p1 ++ b)) = b := by
    apply BitVec.eq_of_toNat_eq
    rw [stripParity_wordRaw1_toNat]
    omega
  rw [stripPair, ha, hb]

theorem word_eq_parts (w : Word16) :
    w.extractLsb' 15 1 ++ stripParity (wordRaw0 w) ++ w.extractLsb' 7 1 ++ stripParity (wordRaw1 w) = w := by
  apply BitVec.eq_of_toNat_eq
  rw [word_toNat, stripParity_wordRaw0_toNat, stripParity_wordRaw1_toNat, BitVec.extractLsb'_toNat,
    BitVec.extractLsb'_toNat, Nat.shiftRight_eq_div_pow, Nat.shiftRight_eq_div_pow]
  omega

/-- Settles O2: the stripper takes the codes out of the packed word, and the decoder is the inverse of their layout. -/
theorem decodeOfEncode : Obligations.DecodeOfEncode := by
  intro i p0 p1 h
  rw [decodeWord, decodePair, encodeWith, stripPair_word]
  exact decodeCodes_codes i h

theorem eq_zero_of_fields :
    ∀ b0 : Code, b0 < 0x20 → codeX b0 = 0 → codeChannel b0 = .ch1 → codeBase b0 = 0 → b0 = 0 := by
  decide

/-- What the decoder answers for a control code is a word of its own row: that a MID hits no row before it is what the
failed tests of these rows say. -/
theorem wf_decodeControl {w : ByteWord} (h0 : w.b0 < 0x20) (hn : ¬(w.b0 = 0 ∧ w.b1 = 0)) :
    (decodeControl w).wf = true := by
  fun_cases decodeControl w
  case case13 =>
    refine midFree_iff.mpr ⟨?_, ?_, ?_, ?_, ?_, ?_⟩
    · bv_omega
    · rintro ⟨hx, hc, hbc, hd⟩
      exact hn ⟨eq_zero_of_fields _ h0 hx hc hbc, hd⟩
    all_goals grind
  all_goals rfl

theorem wf_decodeDisplayable {w : ByteWord} (h0 : 0x20 ≤ w.b0) : (decodeDisplayable w).wf = true := by
  fun_cases decodeDisplayable w
  case case1 h => exact Bool.and_eq_true_iff.mpr ⟨decide_eq_true h0, decide_eq_true h⟩
  case case2 => exact decide_eq_true h0

theorem wf_decodeCodes (w : ByteWord) : (decodeCodes w).wf = true := by
  obtain ⟨-, -, hd⟩ | ⟨h0, hn, hd⟩ | ⟨h0, hd⟩ := decodeCodes_cases w <;> rw [hd]
  · rfl
  · exact wf_decodeControl h0 hn
  · exact wf_decodeDisplayable h0

/-- Settles O3: no row loses a bit of the stripped pair, and the parity bits are the rest of the word. -/
theorem encodeOfDecode : Obligations.EncodeOfDecode := by
  intro w
  have hcodes : codes (decodeWord w) = stripPair (wordRaw0 w) (wordRaw1 w) := codes_decodeCodes _
  refine ⟨wf_decodeCodes _, hcodes, ?_⟩
  rw [encodeWith, hcodes]
  exact word_eq_parts w

end Sys2Proof.Proofs
end

section
/-! The opcode table in R60's form of masks and values against the conditions of R58. -/

namespace Sys2Proof.Proofs

theorem stripPair_wordRaw (w : Word16) :
    stripPair (wordRaw0 w) (wordRaw1 w) = ⟨w.extractLsb' 8 7, w.extractLsb' 0 7⟩ := by
  refine byteWord_eq (BitVec.eq_of_toNat_eq ?_) (BitVec.eq_of_toNat_eq ?_)
  · exact (stripParity_wordRaw0_toNat w).trans (by rw [BitVec.extractLsb'_toNat, Nat.shiftRight_eq_div_pow])
  · exact (stripParity_wordRaw1_toNat w).trans (by rw [BitVec.extractLsb'_toNat, Nat.shiftRight_zero])

/-- A word is its two codes and its two parity bits. -/
theorem word_eq_iff {w v : Word16} : w = v ↔
    w.extractLsb' 8 7 = v.extractLsb' 8 7 ∧ w.extractLsb' 0 7 = v.extractLsb' 0 7 ∧
      w.extractLsb' 15 1 = v.extractLsb' 15 1 ∧ w.extractLsb' 7 1 = v.extractLsb' 7 1 := by
  refine ⟨fun h => h ▸ ⟨rfl, rfl, rfl, rfl⟩, fun h => BitVec.eq_of_toNat_eq ?_⟩
  simp only [← BitVec.toNat_inj, BitVec.extractLsb'_toNat, Nat.shiftRight_eq_div_pow] at h
  omega

/-- No mask and no value of the table has a parity bit, so a row matches by the two codes. -/
theorem row_matches_iff {w m v : Word16} (hm : m.extractLsb' 15 1 = 0 ∧ m.extractLsb' 7 1 = 0)
    (hv : v.extractLsb' 15 1 = 0 ∧ v.extractLsb' 7 1 = 0) : w &&& m = v ↔
      w.extractLsb' 8 7 &&& m.extractLsb' 8 7 = v.extractLsb' 8 7 ∧
      w.extractLsb' 0 7 &&& m.extractLsb' 0 7 = v.extractLsb' 0 7 := by
  simp [word_eq_iff, BitVec.extractLsb'_and, hm, hv]

/-- What the masks of the table ask of a code, as numbers. -/
theorem and_code_iff : ∀ b : Code,
    (b &&& 0x67#7 = 1#7 ↔ b.toNat < 0x20 ∧ b.toNat % 8 = 1) ∧
    (b &&& 0x67#7 = 4#7 ↔ b.toNat < 0x20 ∧ b.toNat % 8 = 4) ∧
    (b &&& 0x67#7 = 7#7 ↔ b.toNat < 0x20 ∧ b.toNat % 8 = 7) ∧
    (b &&& 0x66#7 = 2#7 ↔ b.toNat < 0x20 ∧ (b.toNat % 8 = 2 ∨ b.toNat % 8 = 3)) ∧
    (b &&& 0x60#7 = 0#7 ↔ b.toNat < 0x20) ∧
    (b &&& 0x60#7 = 0x20#7 ↔ 0x20 ≤ b.toNat ∧ b.toNat < 0x40) ∧
    (b &&& 0x70#7 = 0x30#7 ↔ 0x30 ≤ b.toNat ∧ b.toNat < 0x40) ∧
    (b &&& 0x40#7 = 0x40#7 ↔ 0x40 ≤ b.toNat) ∧
    b &&& 0x7F#7 = b ∧ b &&& 0#7 = 0#7 := by
  decide

/-- The first row that matches stands for the codes' class: the condition of each row but the last three is R58's own,
and MID, CHR1 and CHR2 have the rows before them shut out. -/
theorem classCond_of_tableClass {w : Word16} {k : WordClass} (h : tableClass w = some k) :
    ClassCond (w.extractLsb' 8 7).toNat (w.extractLsb' 0 7).toNat k := by
  unfold tableClass opcodeRows at h
  simp only [List.find?_cons, beq_eq_decide, List.find?_nil] at h
  simp (disch := simp) only [row_matches_iff] at h
  generalize w.extractLsb' 8 7 = b0, w.extractLsb' 0 7 = b1 at h
  simp only [BitVec.reduceExtractLsb', and_code_iff, BitVec.ofNat_eq_ofNat] at h
  repeat' split at h
  case h_2 => cases h
  all_goals
    obtain rfl := Option.some.inj h
    simp only [decide_eq_true_eq, decide_eq_false_iff_not, ← BitVec.toNat_inj, BitVec.toNat_ofNat] at *
    grind [ClassCond]

theorem tableClass_isSome (w : Word16) : (tableClass w).isSome := by
  simp [tableClass, opcodeRows]

/-- Settles O7: some row matches, since the last one matches everything, and the first that does and the decoder give the
codes a class of the same condition. -/
theorem decoderAgreesWithTable : Obligations.DecoderAgreesWithTable := by
  intro w
  obtain ⟨k, hk⟩ := Option.isSome_iff_exists.mp (tableClass_isSome w)
  have hw : ClassCond _ _ (decodeWord w).wordClass := classCond_decodeCodes (stripPair (wordRaw0 w) (wordRaw1 w))
  rw [stripPair_wordRaw] at hw
  rw [hk, (classCond_of_tableClass hk).unique hw]

end Sys2Proof.Proofs
end

section
/-! The host's pins and the refusals against 40_front_end.md R74, 60_exceptions.md R136 and 93_implementation_defined.md
U9, and what one beat can leave. -/

namespace Sys2Proof.Proofs

open Sys2Proof.Machine Sys2Proof.Claims

variable {b : Beat} {s t : State}

/-- Settles O10: a word beat to a running block, taken off the queue. -/
theorem stepRunsTheDecodedInstruction : Obligations.StepRunsTheDecodedInstruction := by
  rintro s b rest hq ⟨hrst, hhalt, hvalid⟩ hs
  exact (step_cons hq).trans (onBeat_word hrst hhalt hvalid hs)

theorem tableWord_sixteen {n : Nat} (h : n < 65536) : tableWord 16 n = BitVec.ofNat 16 n :=
  congrArg (BitVec.ofNat 16) (Nat.mod_eq_of_lt h)

/-- Settles O11: the number of a word is the word, and the placed beat is the head of the queue. -/
theorem fetchWordRunsNext : Obligations.FetchWordRunsNext := by
  intro s n hn
  rw [State.withFetchWord, decodeTableWord, tableWord_sixteen hn]
  refine ⟨rfl, ?_⟩
  rw [stepRunsTheDecodedInstruction _ _ _ (presentWord_inputs ..) ⟨rfl, rfl, rfl⟩ rfl]
  rfl

theorem onBeat_idle (hrst : b.rst = false) (hhalt : b.halt = false) (hvalid : b.inValid = false) (s : State) :
    onBeat b s = .next (latchPins b s) := by
  simp [onBeat, hrst, hhalt, hvalid]

/-- Settles O12: with no beat, and with a beat that asserts nothing, only the pins move. -/
theorem waitingHoldsTheState : Obligations.WaitingHoldsTheState := by
  refine ⟨fun s => step_nil, fun s b rest hq hrst hhalt hvalid => ?_⟩
  rw [step_cons hq, onBeat_idle hrst hhalt hvalid]
  rfl

theorem onBeat_rst (hrst : b.rst = true) (s : State) : onBeat b s = .next (restart (latchPins b s)) := by
  simp [onBeat, hrst]

/-- Settles O15: `rst` is obeyed before the other pins. -/
theorem resetBeatRestoresResetState : Obligations.ResetBeatRestoresResetState := by
  intro s b rest hq hrst
  rw [step_cons hq, onBeat_rst hrst]
  rfl

/-! What a beat can answer. -/

/-- A step has a next state or a refusal, since nothing can raise a fault (60_exceptions.md R120). -/
theorem next_or_refused (o : StepResult) : (∃ t, o = .next t) ∨ ∃ r, o = .refused r := by
  cases o with
  | next t => exact .inl ⟨t, rfl⟩
  | fault f => exact nomatch f
  | refused r => exact .inr ⟨r, rfl⟩

/-- The two refusals of a beat, each with its condition. -/
theorem onBeat_refused_cases {r : Refusal} (h : onBeat b s = .refused r) :
    (r = .afterHalt ∧ IsWord b ∧ s.halted = true) ∨
    (r = .bufferFull ∧ s.halted = false ∧ ∃ n, s.cfg.holds n = false) := by
  obtain ⟨-, ho⟩ | ⟨-, -, ho⟩ | ⟨hrst, hhalt, hvalid, hs, ho⟩ | ⟨-, -, -, hs, ho⟩ | ⟨-, -, -, ho⟩ := onBeat_cases h
  · cases ho
  · cases ho
  · cases ho
    exact .inl ⟨rfl, ⟨hrst, hhalt, hvalid⟩, hs⟩
  · obtain ⟨hr, buf, hfull, -⟩ := exec_refused_cases ho.symm
    exact .inr ⟨hr, hs, buf.length, hfull⟩
  · cases ho

/-- The four ways of a beat to a next state. -/
theorem onBeat_next_cases (h : onBeat b s = .next t) :
    (b.rst = true ∧ t = restart (latchPins b s)) ∨
    (b.rst = false ∧ t = endRun (latchPins b s)) ∨
    (IsWord b ∧ s.halted = false ∧
      Ran (decodePair b.raw0 b.raw1) { s with tch := b.tch, port := none, consumed := s.consumed + 1 } t) ∨
    t = latchPins b s := by
  obtain ⟨hrst, ho⟩ | ⟨hrst, -, ho⟩ | ⟨-, -, -, -, ho⟩ | ⟨hrst, hhalt, hvalid, hs, ho⟩ | ⟨-, -, -, ho⟩ :=
    onBeat_cases h
  · injection ho with ho
    exact .inl ⟨hrst, ho⟩
  · injection ho with ho
    exact .inr (.inl ⟨hrst, ho⟩)
  · cases ho
  · exact .inr (.inr (.inl ⟨⟨hrst, hhalt, hvalid⟩, hs, exec_next_cases ho.symm⟩))
  · injection ho with ho
    exact .inr (.inr (.inr ho))

/-- Settles O14: a word beat to a halted block is refused before anything runs, and what runs is refused by another
name. -/
theorem wordAfterHaltIsRefused : Obligations.WordAfterHaltIsRefused := by
  intro s b rest hq
  rw [step_cons hq]
  constructor
  · intro h
    obtain ⟨-, hb, hs⟩ | ⟨hr, -⟩ := onBeat_refused_cases h
    · exact ⟨hb, hs⟩
    · cases hr
  · rintro ⟨⟨hrst, hhalt, hvalid⟩, hs⟩
    simp [onBeat, hrst, hhalt, hvalid, hs]

theorem step_refused_cases {r : Refusal} (h : step s = .refused r) :
    (r = .afterHalt ∧ s.halted = true) ∨ (r = .bufferFull ∧ s.halted = false ∧ ∃ n, s.cfg.holds n = false) := by
  cases hq : s.inputs with
  | nil => rw [step_nil hq] at h; cases h
  | cons b rest =>
    rw [step_cons hq] at h
    exact (onBeat_refused_cases h).imp_left fun ⟨hr, _, hs⟩ => ⟨hr, hs⟩

/-- Settles O17: no faults, two refusals, and neither can come to a running block with the unbounded buffer. -/
theorem stepIsTotalButForTwoRefusals : Obligations.StepIsTotalButForTwoRefusals := by
  refine ⟨fun s r h => ?_, fun s hs hcap => ?_⟩
  · obtain hhalt | ⟨hr, -, n, hfull⟩ := step_refused_cases h
    · exact .inr hhalt
    · exact .inl ⟨hr, fun hcap => by simp [hcap] at hfull⟩
  · obtain hnext | ⟨r, h⟩ := next_or_refused (step s)
    · exact hnext
    · obtain ⟨-, hhalt⟩ | ⟨-, -, n, hfull⟩ := step_refused_cases h
      · exact absurd (hs.symm.trans hhalt) nofun
      · exact absurd (hfull.symm.trans (holds_unbounded hcap n)) nofun

/-! The queue of coming beats against 20_memory.md R43. -/

theorem onBeat_withQueue (b : Beat) (l : List Beat) (s : State) :
    onBeat b { s with inputs := l } = withQueue l (onBeat b s) := by
  unfold onBeat
  split_ifs
  · rfl
  · rfl
  · rfl
  · exact exec_withQueue _ l { latchPins b s with consumed := s.consumed + 1 }
  · rfl

theorem run_succ_of_next (h : step s = .next t) (k : Nat) :
    Host.Core.run core (k + 1) s = Host.Core.run core k t := by
  have hcore : core.step s = .next t := h
  simp only [Host.Core.run, hcore]

theorem run_succ_of_refused {r : Refusal} (h : step s = .refused r) (k : Nat) :
    Host.Core.run core (k + 1) s = .refused r := by
  have hcore : core.step s = .refused r := h
  simp only [Host.Core.run, hcore]

/-- Settles O19: each step takes the head of the queue, and what it does with it does not depend on the rest. -/
theorem queueIsFed : Obligations.QueueIsFed := by
  intro bs rest s
  induction bs generalizing s with
  | nil => rfl
  | cons b bs ih =>
    have hstep : step { s with inputs := b :: bs ++ rest } = withQueue (bs ++ rest) (onBeat b s) :=
      (step_cons rfl).trans (onBeat_withQueue b (bs ++ rest) s)
    have hbeat : onBeat b { s with inputs := rest } = withQueue rest (onBeat b s) := onBeat_withQueue b rest s
    rw [feed, hbeat]
    obtain ⟨t, ht⟩ | ⟨r, hr⟩ := next_or_refused (onBeat b s)
    · rw [ht] at hstep ⊢
      exact (run_succ_of_next hstep bs.length).trans (ih t)
    · rw [hr] at hstep ⊢
      exact run_succ_of_refused hstep bs.length

end Sys2Proof.Proofs
end

section
/-! The frame of every instruction and of every step against 40_front_end.md R75 and R78 and 10_state.md R21. -/

namespace Sys2Proof.Proofs

open Sys2Proof.Machine Sys2Proof.Claims

variable {i : Instr} {s t : State}

theorem ne_nul_of_channel {c : Channel} (h : i.channel? = some c) : i ≠ .nul := (control_facts h).1

theorem ne_nul_of_displayable (h : i.wordClass.kind = .displayable) : i ≠ .nul := by
  rintro rfl
  cases h

/-- `LAST` after an instruction: written by everything but NUL (decision D4). -/
theorem last_of_ran (h : Ran i s t) : t.last = if i = .nul then s.last else some (codes i) := by
  cases h
  case null h => rw [if_pos h]
  case dropped c hc _ => rw [if_neg (ne_nul_of_channel hc)]
  case flushed c nl hc _ _ => rw [if_neg (ne_nul_of_channel hc)]
  case text c hc _ _ _ _ => rw [if_neg (ne_nul_of_channel hc)]
  case shown hk _ _ _ => rw [if_neg (ne_nul_of_displayable hk)]
  case hidden hk _ _ => rw [if_neg (ne_nul_of_displayable hk)]

/-- What no instruction writes. -/
theorem host_of_ran (h : Ran i s t) :
    t.cfg = s.cfg ∧ t.tch = s.tch ∧ t.inputs = s.inputs ∧ t.halted = s.halted ∧ t.consumed = s.consumed := by
  cases h <;> exact ⟨rfl, rfl, rfl, rfl, rfl⟩

theorem sink_of_ran (h : Ran i s t) (h1 : i.wordClass ≠ .fln) (h2 : i.wordClass ≠ .flr) :
    t.port = s.port ∧ t.sink = s.sink := by
  cases h
  case flushed c nl hc _ hk =>
    cases nl with
    | true => exact absurd hk h1
    | false => exact absurd hk h2
  all_goals exact ⟨rfl, rfl⟩

/-- Settles O23: each clause read off the six ways an instruction can run. -/
theorem execFrame : Obligations.ExecFrame := by
  intro i s t h
  have hran := exec_next_cases h
  obtain ⟨hcfg, htch, hinputs, hhalted, hconsumed⟩ := host_of_ran hran
  exact ⟨hcfg, htch, hinputs, hhalted, hconsumed, ach_of_ran hran, last_of_ran hran, sink_of_ran hran⟩

theorem host_of_onBeat {b : Beat} (h : onBeat b s = .next t) :
    t.cfg = s.cfg ∧ t.inputs = s.inputs ∧ t.tch = b.tch := by
  obtain ⟨-, rfl⟩ | ⟨-, rfl⟩ | ⟨-, -, hran⟩ | rfl := onBeat_next_cases h
  · exact ⟨rfl, rfl, rfl⟩
  · exact ⟨rfl, rfl, rfl⟩
  · obtain ⟨hcfg, htch, hinputs, -⟩ := host_of_ran hran
    exact ⟨hcfg, hinputs, htch⟩
  · exact ⟨rfl, rfl, rfl⟩

/-- Settles O22: a step takes its beat off the queue and no beat writes the parameters or the rest of the queue. -/
theorem stepLeavesHostAndRoms : Obligations.StepLeavesHostAndRoms := by
  intro s t h
  cases hq : s.inputs with
  | nil =>
    rw [step_nil hq] at h
    injection h with h
    subst h
    exact ⟨rfl, hq, rfl⟩
  | cons b rest =>
    rw [step_cons hq] at h
    exact host_of_onBeat h

theorem sinkChars_append_event (events : List Emission) (e : Emission) :
    sinkChars (events ++ [e]) = sinkChars events ++ e.text ++ (if e.nl then [newlineChar] else []) := by
  simp [sinkChars]

/-- Settles O24: only an acted-on flush touches the port and the sink, and `rst` empties the sink. -/
theorem onlyFlushesEmit : Obligations.OnlyFlushesEmit := by
  intro s t b rest hq h
  rw [step_cons hq] at h
  obtain ⟨hrst, rfl⟩ | ⟨-, rfl⟩ | ⟨-, -, hran⟩ | rfl := onBeat_next_cases h
  · exact .inr (.inl ⟨hrst, rfl, rfl⟩)
  · exact .inl ⟨rfl, rfl⟩
  · cases hran
    case flushed c nl hc hacts hk =>
      obtain ⟨hlast, rfl⟩ := hacts
      rw [codes_of_decodePair_eq rfl] at hlast
      exact .inr (.inr ⟨nl, rfl, rfl, rfl, hk, hc, hlast, sinkChars_append_event s.sink ⟨s.cbuf, nl, !nl⟩⟩)
    all_goals exact .inl ⟨rfl, rfl⟩
  · exact .inl ⟨rfl, rfl⟩

theorem dropLast_prefix_keptOf (i : Instr) (buf : List CapChar) : buf.dropLast <+: keptOf i buf := by
  cases i
  case ext => exact List.prefix_refl _
  all_goals exact List.dropLast_prefix _

theorem keptOf_length_le (i : Instr) (buf : List CapChar) : (keptOf i buf).length ≤ buf.length := by
  cases i <;> simp [keptOf]

/-- A text control code brings at least as many characters as it takes. -/
theorem length_le_written {c : Channel} (hc : i.channel? = some c) (h1 : i.wordClass ≠ .fln) (h2 : i.wordClass ≠ .flr)
    (cfg : Config) (buf : List CapChar) : buf.length ≤ (keptOf i buf ++ textOf cfg i).length := by
  cases i
  case ext => simp [keptOf, textOf]; omega
  all_goals simp_all [keptOf, textOf, Instr.wordClass, Instr.channel?]

/-- Settles O25: what each way of running puts in the buffer. -/
theorem bufferGrowth : Obligations.BufferGrowth := by
  intro i s t h h1 h2
  have htext := textOf_length_le s.cfg i
  cases exec_next_cases h
  case flushed c nl hc _ hk =>
    cases nl with
    | true => exact absurd hk h1
    | false => exact absurd hk h2
  case text c hc _ _ _ _ =>
    refine ⟨(dropLast_prefix_keptOf i _).trans (List.prefix_append _ _), length_le_written hc h1 h2 _ _, ?_⟩
    have := keptOf_length_le i s.cbuf
    rw [List.length_append]
    omega
  case shown =>
    refine ⟨(List.dropLast_prefix _).trans (List.prefix_append _ _), ?_, ?_⟩
    · exact (List.prefix_append _ _).length_le
    · simpa using htext
  all_goals exact ⟨List.dropLast_prefix _, Nat.le_refl _, Nat.le_add_right _ _⟩

end Sys2Proof.Proofs
end

section
/-! A buffer without room against 20_memory.md R37 and 93_implementation_defined.md U4. -/

namespace Sys2Proof.Proofs

open Sys2Proof.Machine Sys2Proof.Claims

variable {i : Instr} {c : Channel} {s : State}

theorem exec_eq_refused (hc : i.channel? = some c) (h1 : i.wordClass ≠ .fln) (h2 : i.wordClass ≠ .flr)
    (h : Acts (codes i) c s)
    (full : s.cfg.holds ((keptOf i s.cbuf).length + (textOf s.cfg i).length) = false) :
    exec i s = .refused .bufferFull := by
  rw [← List.length_append] at full
  rw [exec_eq_action hc h, action_text hc h1 h2]
  exact setBuffer_refused.mpr ⟨full, rfl⟩

theorem displayStep_of_full {w : ByteWord} {shown : List Code} (hg : s.ach = s.tch)
    (full : s.cfg.holds (s.cbuf.length + shown.length) = false) :
    displayStep w shown s = .refused .bufferFull := by
  rw [displayStep_open hg]
  exact setBuffer_refused.mpr ⟨by rwa [List.length_append, List.length_map], rfl⟩

theorem textOf_pac_length (cfg : Config) (x : BitVec 1) (c : Channel) (bc : BitVec 3) (h5 h4 : BitVec 1) (k : BitVec 3)
    (u : BitVec 1) : (textOf cfg (.pac x c bc h5 h4 k u)).length = 1 + if h4 = 1 then 4 * k.toNat else 0 := by
  rw [textOf, List.length_cons, List.length_replicate, Nat.add_comm]
  exact congrArg (1 + ·) (preSpaces_pacCode h5 h4 k u)

/-- Settles O26: a refusal names a length the capacity does not hold, and each text instruction asks for the length of
what it keeps and what it brings. -/
theorem fullBufferIsRefused : Obligations.FullBufferIsRefused := by
  refine ⟨fun i s r h => ?_, fun _ _ _ _ => exec_eq_refused rfl nofun nofun, fun _ _ _ _ s ha full => ?_,
    fun x c s p hp ha full => ?_, fun x c bc h5 h4 k u s ha full => ?_, fun _ _ _ _ _ => exec_eq_refused rfl nofun nofun,
    fun a _ _ => displayStep_of_full (shown := [a]), fun a b _ => displayStep_of_full (shown := [a, b])⟩
  · obtain ⟨hr, buf, hfull, hlen⟩ := exec_refused_cases h
    obtain ⟨cap, hcap, hlt⟩ := not_holds hfull
    exact ⟨hr, cap, hcap, hlt.trans_le hlen⟩
  · exact exec_eq_refused rfl nofun nofun ha (by rwa [keptOf, List.length_dropLast])
  · obtain ⟨hclass, hc, -, hkept, htext⟩ := tab_of_mem_tabForms hp
    refine exec_eq_refused hc (by simp [hclass]) (by simp [hclass]) ha ?_
    rwa [hkept, htext, List.length_replicate]
  · refine exec_eq_refused rfl nofun nofun ha ?_
    rwa [textOf_pac_length, ← Nat.add_assoc]

end Sys2Proof.Proofs
end

section
/-! Repeat suppression against 41_control_dispatch.md R82 and section 3, and bit 4 against 30_encoding.md R52. -/

namespace Sys2Proof.Proofs

open Sys2Proof.Machine Sys2Proof.Claims

variable {i : Instr} {c : Channel} {s t : State}

theorem exec_repeat (hc : i.channel? = some c) (h : s.last = some (codes i)) : exec i s = .next { s with ach := c } := by
  rw [exec_eq_dropped hc fun ha => ha.1 h, dropped, ← h]

/-- Settles O30: a repeat is not acted on, and `LAST` already holds the code. -/
theorem repeatIsDropped : Obligations.RepeatIsDropped :=
  fun _ _ _ => exec_repeat

theorem exec_repeat_of_ach (hc : i.channel? = some c) (h : s.last = some (codes i)) (ha : s.ach = c) :
    exec i s = .next s := by
  rw [exec_repeat hc h, ← ha]

/-- Settles O31: a code that has run stands in `LAST` and its channel in `ACH`. -/
theorem copiesActOnce : Obligations.CopiesActOnce := by
  intro i c s t hc h
  have hran := exec_next_cases h
  have hlast : t.last = some (codes i) := by rw [last_of_ran hran, if_neg (ne_nul_of_channel hc)]
  have hach : t.ach = c := by rw [ach_of_ran hran, hc, Option.getD_some]
  exact ⟨exec_repeat_of_ach hc hlast hach, exec_nul t⟩

/-- Settles O32: in a state that meets the invariant `ACH` is the channel of a control code in `LAST`. -/
theorem repeatChangesNothing : Obligations.RepeatChangesNothing := by
  intro i c s hinv hwf hc hlast
  obtain ⟨-, hkind, hch⟩ := control_facts hc
  exact exec_repeat_of_ach hc hlast ((hinv.achOfLast _ hlast ((classify_codes i hwf).trans hkind)).trans hch)

/-- The same instruction with another bit 4 in its first code; only control codes have it as a field. -/
def withX (x : BitVec 1) : Instr → Instr
  | .fln _ c => .fln x c
  | .flr25 _ c => .flr25 x c
  | .flr26 _ c => .flr26 x c
  | .flr27 _ c => .flr27 x c
  | .flr2C _ c => .flr2C x c
  | .flr2D _ c => .flr2D x c
  | .spc _ c n => .spc x c n
  | .ext _ c k j => .ext x c k j
  | .tab21 _ c => .tab21 x c
  | .tab22 _ c => .tab22 x c
  | .tab23 _ c => .tab23 x c
  | .pac _ c bc h5 h4 k u => .pac x c bc h5 h4 k u
  | .mid _ c bc d => .mid x c bc d
  | i => i

theorem wordClass_withX (x : BitVec 1) (i : Instr) : (withX x i).wordClass = i.wordClass := by
  cases i <;> rfl

theorem channel?_withX (x : BitVec 1) (i : Instr) : (withX x i).channel? = i.channel? := by
  cases i <;> rfl

/-- No action looks at bit 4 of the first code. -/
theorem action_withX (x : BitVec 1) (i : Instr) : action (withX x i) = action i := by
  cases i <;> rfl

theorem flip_fields : ∀ b0 : Code, codeChannel (b0 ^^^ 0x10) = codeChannel b0 ∧ codeBase (b0 ^^^ 0x10) = codeBase b0 ∧
    (b0 ^^^ 0x10).extractLsb' 0 1 = b0.extractLsb' 0 1 := by
  decide

/-- No row of the control codes looks at bit 4 of the first code. -/
theorem decodeControl_flip (b0 b1 : Code) :
    decodeControl ⟨b0 ^^^ 0x10, b1⟩ = withX (codeX (b0 ^^^ 0x10)) (decodeControl ⟨b0, b1⟩) := by
  obtain ⟨hch, hbase, hbank⟩ := flip_fields b0
  simp only [decodeControl, hch, hbase, hbank, apply_ite (withX _)]
  rfl

/-- The action of a control code neither reads nor writes `LAST`. -/
theorem action_withLast (hc : i.channel? = some c) (l : Option ByteWord) (h : action i s = .next t) :
    action i { s with last := l } = .next { t with last := l } := by
  by_cases hf : i.wordClass = .fln ∨ i.wordClass = .flr
  · cases i <;> simp only [Instr.wordClass, reduceCtorEq, or_self] at hf
    all_goals
      injection h with h
      exact h ▸ rfl
  · rw [action_text hc (fun e => hf (.inl e)) (fun e => hf (.inr e))] at h ⊢
    obtain ⟨room, rfl⟩ := setBuffer_next.mp h
    exact setBuffer_of_holds room

/-- Two control codes with one action and one channel, neither a repeat, do the same to all but `LAST`. -/
theorem exec_of_action_eq {j : Instr} (hi : i.channel? = some c) (hj : j.channel? = some c) (hact : action j = action i)
    (hli : s.last ≠ some (codes i)) (hlj : s.last ≠ some (codes j)) (h : exec i s = .next t) :
    exec j s = .next { t with last := some (codes j) } := by
  by_cases hch : c = s.tch
  · rw [exec_eq_action hi ⟨hli, hch⟩] at h
    rw [exec_eq_action hj ⟨hlj, hch⟩, hact]
    exact action_withLast hi _ h
  · rw [exec_eq_dropped hi fun ha => hch ha.2] at h
    rw [exec_eq_dropped hj fun ha => hch ha.2]
    injection h with h
    exact h ▸ rfl

theorem channel?_of_control {w : ByteWord} (h : classify w = .control) :
    (decodeCodes w).channel? = some (codeChannel w.b0) := by
  rw [channel?_eq_codeChannel, kind_decodeCodes, if_pos h, codes_decodeCodes]

/-- Settles O33: the two codes decode to one instruction but for bit 4. -/
theorem bit4IsNotExamined : Obligations.Bit4IsNotExamined := by
  intro b0 b1 s h h'
  have hflip : decodeCodes ⟨b0 ^^^ 0x10, b1⟩ = withX (codeX (b0 ^^^ 0x10)) (decodeCodes ⟨b0, b1⟩) := by
    rw [decodeCodes_of_control h, decodeCodes_of_control h', decodeControl_flip]
  have hchannel : (decodeCodes ⟨b0 ^^^ 0x10, b1⟩).channel? = (decodeCodes ⟨b0, b1⟩).channel? := by
    rw [hflip, channel?_withX]
  refine ⟨by rw [hflip, wordClass_withX], hchannel, fun hl hl' t ht => ?_⟩
  have hc := channel?_of_control h
  have hrun := exec_of_action_eq hc (hchannel.trans hc) (by rw [hflip, action_withX]) (codes_decodeCodes _ ▸ hl)
    (codes_decodeCodes _ ▸ hl') ht
  rwa [codes_decodeCodes] at hrun

end Sys2Proof.Proofs
end

section
/-! EXT against 41_control_dispatch.md R89. -/

namespace Sys2Proof.Proofs

open Sys2Proof.Machine Sys2Proof.Claims

variable {i : Instr}

theorem wordClass_eq_ext_iff : i.wordClass = .ext ↔ ∃ x c k j, i = .ext x c k j := by
  cases i <;> simp [Instr.wordClass]

theorem decodePair_eq_ext_iff {r0 r1 : Byte} :
    (∃ x c k j, decodePair r0 r1 = .ext x c k j ∧
        32 * k.toNat + j.toNat = (code0 r0 % 8 - 2) * 0x20 + (code1 r1 - 0x20)) ↔
      (decodePair r0 r1).wordClass = .ext := by
  rw [wordClass_eq_ext_iff]
  constructor
  · rintro ⟨x, c, k, j, h, -⟩
    exact ⟨x, c, k, j, h⟩
  · rintro ⟨x, c, k, j, h⟩
    exact ⟨x, c, k, j, h, by rw [← extIndex_toNat, (extIndex_of_decodePair h).1]⟩

theorem extRom_entry (cfg : Config) (k : BitVec 1) (j : BitVec 5) :
    cfg.extRom.toList[32 * k.toNat + j.toNat]?.toList = [readExt cfg (extIndex k j)] := by
  rw [← extIndex_toNat, extRom_getElem?, Option.toList_some]

/-- Settles O37: EXT's word by its class and its index by its codes; it keeps all but the last character, which is all
of an empty buffer, and brings the one entry of `EXT`. -/
theorem extReplacesLast : Obligations.ExtReplacesLast := by
  refine ⟨fun _ _ => decodePair_eq_ext_iff.trans wordClass_eq_iff, fun x c k j s => ?_⟩
  rw [extRom_entry]
  refine ⟨fun kept lost ha hbuf room => ?_, fun ha hbuf room => ?_, exec_eq_dropped rfl, rfl⟩
  · have hkept : keptOf (.ext x c k j) s.cbuf = kept := by rw [hbuf]; exact List.dropLast_concat
    have hrun := exec_eq_written (i := .ext x c k j) rfl nofun nofun ha
    rw [hkept] at hrun
    exact hrun (by rwa [hbuf, List.length_append] at room)
  · have hkept : keptOf (.ext x c k j) s.cbuf = [] := by rw [hbuf]; rfl
    have hrun := exec_eq_written (i := .ext x c k j) rfl nofun nofun ha
    rw [hkept] at hrun
    exact hrun room

/-- A displayable pair and a control code are never the same word. -/
theorem codes_ne_of_kind {j : Instr} (hi : i.wf = true) (hj : j.wf = true) (h : i.wordClass.kind ≠ j.wordClass.kind) :
    codes i ≠ codes j :=
  fun he => h (by rw [← classify_codes i hi, he, classify_codes j hj])

/-- Settles O38: the plain character stands last in the buffer when the extended code, which is no repeat of a
displayable pair, takes its place. -/
theorem plainThenExtendedNetsOne : Obligations.PlainThenExtendedNetsOne := by
  intro a d x k j s hwf hgate room
  have hext := extReplacesLast.2 x s.tch k j
    { s with last := some (codes (.chr1 a d)), cbuf := s.cbuf ++ [readBasic s.cfg a] }
  rw [extRom_entry] at hext
  refine ⟨_, _, displayStep_of_holds (shown := [a]) hgate room, hext.1 s.cbuf _ ⟨?_, rfl⟩ rfl ?_, rfl,
    List.length_append⟩
  · exact fun he => codes_ne_of_kind hwf (j := .ext x s.tch k j) rfl nofun (Option.some.inj he)
  · rwa [List.length_append]

end Sys2Proof.Proofs
end

section
/-! The invariant: it holds at reset, and every beat keeps it. -/

namespace Sys2Proof.Proofs

open Sys2Proof.Machine Sys2Proof.Claims

theorem inv_of_empty {cfg : Config} (hcfg : cfg.legal = true) (tch : Channel) (inputs : List Beat) :
    State.Inv { State.reset with cfg := cfg, tch := tch, inputs := inputs } where
  legal := hcfg
  fits := holds_zero cfg
  cbufScalar := nofun
  sinkScalar := nofun
  sinkKinds := nofun
  portInSink := nofun
  lastNotNull := nofun
  achOfLast := nofun
  fresh := fun _ => ⟨rfl, rfl, rfl⟩
  counted := Nat.le_refl 0
  bounded := Nat.le_refl 0

/-- Settles O20: nothing is buffered, emitted or counted, and the default tables are legal. -/
theorem resetMeetsInv : Obligations.ResetMeetsInv :=
  inv_of_empty (by decide) _ _

/-! One lemma for each thing a beat can do to a state that meets the invariant. -/

section

variable {s : State} (hs : s.Inv)
include hs

theorem inv_port_idle : State.Inv { s with port := none } :=
  { hs with portInSink := nofun }

theorem inv_latchPins (b : Beat) : (latchPins b s).Inv :=
  { hs with portInSink := nofun }

theorem inv_endRun : (endRun s).Inv :=
  { hs with }

theorem inv_restart : (restart s).Inv :=
  inv_of_empty hs.legal _ _

theorem inv_inputs (l : List Beat) : State.Inv { s with inputs := l } :=
  { hs with }

theorem inv_consumed : State.Inv { s with consumed := s.consumed + 1 } :=
  { hs with
    counted := Nat.le_succ_of_le hs.counted
    bounded := hs.bounded.trans (Nat.mul_le_mul_left 29 (Nat.le_succ _)) }

theorem inv_noteControl {w : ByteWord} {c : Channel} (hw : classify w = .control) (hc : codeChannel w.b0 = c) :
    State.Inv { s with ach := c, last := some w } :=
  { hs with
    lastNotNull := fun h => by rw [Option.some.inj h] at hw; cases hw
    achOfLast := fun v hv _ => by rw [← Option.some.inj hv, hc]
    fresh := nofun }

theorem inv_noteDisplayable {w : ByteWord} (hw : classify w = .displayable) : State.Inv { s with last := some w } :=
  { hs with
    lastNotNull := fun h => by rw [Option.some.inj h] at hw; cases hw
    achOfLast := fun v hv hk => by rw [← Option.some.inj hv, hw] at hk; cases hk
    fresh := nofun }

theorem inv_buffer {buf : List CapChar} (hlast : s.last ≠ none) (room : s.cfg.holds buf.length = true)
    (hscalar : ∀ c ∈ buf, isScalar c = true) (hbound : (sinkChars s.sink).length + buf.length ≤ 29 * s.consumed) :
    State.Inv { s with cbuf := buf } :=
  { hs with
    fits := room
    cbufScalar := hscalar
    fresh := fun h => absurd h hlast
    bounded := hbound }

theorem inv_flush (hlast : s.last ≠ none) (nl : Bool) (hcount : s.sink.length < s.consumed)
    (hbound : (sinkChars s.sink).length + s.cbuf.length + 1 ≤ 29 * s.consumed) :
    State.Inv { s with
      cbuf := [], port := some ⟨s.cbuf, nl, !nl⟩, sink := s.sink ++ [⟨s.cbuf, nl, !nl⟩] } where
  legal := hs.legal
  fits := holds_zero s.cfg
  cbufScalar := nofun
  sinkScalar := by
    simp only [List.forall_mem_append, List.forall_mem_singleton]
    exact ⟨hs.sinkScalar, hs.cbufScalar⟩
  sinkKinds := by
    simpa only [List.forall_mem_append, List.forall_mem_singleton, and_true] using hs.sinkKinds
  portInSink := fun e he => he ▸ List.getLast?_concat
  lastNotNull := hs.lastNotNull
  achOfLast := hs.achOfLast
  fresh := fun h => absurd h hlast
  counted := by
    rw [List.length_append]
    exact hcount
  bounded := by
    have hnl : (if nl = true then [newlineChar] else []).length ≤ 1 := by cases nl <;> decide
    simp only [sinkChars_append_event, List.length_append, List.length_nil]
    omega

end

/-- Room in the two counts of the invariant for what one more word can bring (20_memory.md R37). -/
def HasSlack (s : State) : Prop :=
  s.sink.length < s.consumed ∧ (sinkChars s.sink).length + s.cbuf.length + 29 ≤ 29 * s.consumed

theorem hasSlack_consumed {s : State} (hs : s.Inv) : HasSlack { s with consumed := s.consumed + 1 } :=
  ⟨Nat.lt_succ_of_le hs.counted, Nat.add_le_add_right hs.bounded 29⟩

theorem keptOf_scalar {buf : List CapChar} (h : ∀ c ∈ buf, isScalar c = true) (i : Instr) :
    ∀ c ∈ keptOf i buf, isScalar c = true := by
  cases i
  case ext => exact fun c hc => h c (List.mem_of_mem_dropLast hc)
  all_goals exact h

/-- Every way an instruction can run keeps the invariant. -/
theorem inv_of_ran {i : Instr} {s t : State} (hs : s.Inv) (hslack : HasSlack s)
    (hkind : classify (codes i) = i.wordClass.kind) (h : Ran i s t) : t.Inv := by
  obtain ⟨hcount, hbound⟩ := hslack
  have htext := textOf_scalar hs.legal i
  have hlen := textOf_length_le s.cfg i
  have hnote {c : Channel} (hc : i.channel? = some c) : State.Inv { s with ach := c, last := some (codes i) } := by
    obtain ⟨-, hcontrol, hch⟩ := control_facts hc
    exact inv_noteControl hs (hkind.trans hcontrol) hch
  cases h
  case null => exact hs
  case dropped c hc _ => exact hnote hc
  case flushed c nl hc _ _ =>
    have hbound' : (sinkChars s.sink).length + s.cbuf.length + 1 ≤ 29 * s.consumed := by omega
    exact inv_flush (hnote hc) nofun nl hcount hbound'
  case text c hc _ _ _ room =>
    have hkept := keptOf_length_le i s.cbuf
    refine inv_buffer (hnote hc) nofun room (List.forall_mem_append.mpr ⟨keptOf_scalar hs.cbufScalar i, htext⟩) ?_
    show (sinkChars s.sink).length + _ ≤ 29 * s.consumed
    rw [List.length_append]
    omega
  case shown hk _ _ room =>
    refine inv_buffer (inv_noteDisplayable hs (hkind.trans hk)) nofun room
      (List.forall_mem_append.mpr ⟨hs.cbufScalar, htext⟩) ?_
    show (sinkChars s.sink).length + _ ≤ 29 * s.consumed
    rw [List.length_append]
    omega
  case hidden hk _ _ => exact inv_noteDisplayable hs (hkind.trans hk)

theorem onBeat_keeps_inv {b : Beat} {s t : State} (hs : s.Inv) (h : onBeat b s = .next t) : t.Inv := by
  have hpins := inv_latchPins hs b
  obtain ⟨-, rfl⟩ | ⟨-, rfl⟩ | ⟨-, -, hran⟩ | rfl := onBeat_next_cases h
  · exact inv_restart hpins
  · exact inv_endRun hpins
  · exact inv_of_ran (inv_consumed hpins) (hasSlack_consumed hpins) (classify_codes _ (wf_decodeCodes _)) hran
  · exact hpins

/-- Settles O21: a step without a beat idles the port, and every beat keeps the invariant whatever its queue. -/
theorem stepKeepsInv : Obligations.StepKeepsInv := by
  intro s t hs h
  cases hq : s.inputs with
  | nil =>
    rw [step_nil hq] at h
    injection h with h
    exact h ▸ inv_port_idle hs
  | cons b rest =>
    rw [step_cons hq] at h
    exact onBeat_keeps_inv (inv_inputs hs rest) h

theorem feed_cons_of_next {b : Beat} {s t : State} (h : onBeat b s = .next t) (bs : List Beat) :
    feed (b :: bs) s = feed bs t := by
  rw [feed, h]

theorem feed_keeps_inv {bs : List Beat} {s t : State} (hs : s.Inv) (h : feed bs s = .next t) : t.Inv := by
  induction bs generalizing s with
  | nil =>
    injection h with h
    exact h ▸ hs
  | cons b bs ih =>
    obtain ⟨u, hu⟩ | ⟨r, hr⟩ := next_or_refused (onBeat b s)
    · rw [feed_cons_of_next hu] at h
      exact ih (onBeat_keeps_inv hs hu) h
    · rw [feed, hr] at h
      cases h

end Sys2Proof.Proofs
end

section
/-! Isolation of the channels against 42_displayable.md section 3. -/

namespace Sys2Proof.Proofs

open Sys2Proof.Machine Sys2Proof.Claims

variable {c : Channel} {b : Beat} {s t : State}

/-- What a stretch of words of the other channel leaves as it was, and that the gate is still closed. -/
structure Untouched (c : Channel) (s t : State) : Prop where
  cfg : t.cfg = s.cfg
  cbuf : t.cbuf = s.cbuf
  sink : t.sink = s.sink
  inputs : t.inputs = s.inputs
  ach : t.ach ≠ c
  running : t.halted = false

theorem Untouched.trans {u : State} (h : Untouched c s t) (h' : Untouched c t u) : Untouched c s u where
  cfg := h'.cfg.trans h.cfg
  cbuf := h'.cbuf.trans h.cbuf
  sink := h'.sink.trans h.sink
  inputs := h'.inputs.trans h.inputs
  ach := h'.ach
  running := h'.running

/-- With the gate closed, an instruction that is no control code for `TCH` changes `LAST` and `ACH` alone and leaves the
gate closed. -/
theorem exec_foreign {i : Instr} (hi : i.channel? ≠ some s.tch) (hgate : s.ach ≠ s.tch) :
    ∃ l a, a ≠ s.tch ∧ exec i s = .next { s with last := l, ach := a } := by
  cases hc : i.channel? with
  | some c =>
    have hne : c ≠ s.tch := fun e => hi (by rw [hc, e])
    exact ⟨_, c, hne, exec_eq_dropped hc fun ha => hne ha.2⟩
  | none =>
    cases i <;> simp only [Instr.channel?, reduceCtorEq] at hc
    case nul => exact ⟨s.last, s.ach, hgate, exec_nul s⟩
    case chr1 => exact ⟨_, s.ach, hgate, (exec_chr1 ..).trans (displayStep_closed hgate)⟩
    case chr2 => exact ⟨_, s.ach, hgate, (exec_chr2 ..).trans (displayStep_closed hgate)⟩

theorem onBeat_foreign (hb : IsForeign c b) (hs : s.halted = false) (hgate : s.ach ≠ c) :
    ∃ t, onBeat b s = .next t ∧ Untouched c s t := by
  obtain ⟨⟨hrst, hhalt, hvalid⟩, rfl, hi⟩ := hb
  obtain ⟨l, a, ha, hrun⟩ :=
    exec_foreign (s := { s with tch := b.tch, port := none, consumed := s.consumed + 1 }) hi hgate
  exact ⟨_, (onBeat_word hrst hhalt hvalid hs).trans hrun, rfl, rfl, rfl, rfl, ha, hs⟩

theorem feed_foreign {bs : List Beat} (hbs : ∀ b ∈ bs, IsForeign c b) (hs : s.halted = false) (hgate : s.ach ≠ c) :
    ∃ t, feed bs s = .next t ∧ Untouched c s t := by
  induction bs generalizing s with
  | nil => exact ⟨s, rfl, rfl, rfl, rfl, rfl, hgate, hs⟩
  | cons b bs ih =>
    obtain ⟨hb, hbs⟩ := List.forall_mem_cons.mp hbs
    obtain ⟨t, ht, hst⟩ := onBeat_foreign hb hs hgate
    obtain ⟨u, hu, htu⟩ := ih hbs hst.running hst.ach
    exact ⟨u, (feed_cons_of_next ht bs).trans hu, hst.trans htu⟩

/-- Settles O46: along the sequence, each word leaves the text and the closed gate. -/
theorem foreignWordsLeaveTheText : Obligations.ForeignWordsLeaveTheText := by
  intro c bs s hs hgate hbs
  obtain ⟨t, ht, hst⟩ := feed_foreign hbs hs hgate
  exact ⟨t, ht, hst.cbuf, hst.sink, hst.ach, hst.running⟩

/-! After such a stretch two runs may differ in `LAST`. While the gate is closed `LAST` holds no control code for the
channel, so the next word that is not null finds no repeat in either run, writes `LAST`, and the runs are alike. -/

/-- Two runs after stretches of the other channel: sound, running, the gate closed, and alike but for `LAST`. -/
structure Apart (c : Channel) (s t : State) : Prop where
  left : s.Inv
  right : t.Inv
  leftGate : s.ach ≠ c
  rightGate : t.ach ≠ c
  leftRunning : s.halted = false
  rightRunning : t.halted = false
  cfg : s.cfg = t.cfg
  cbuf : s.cbuf = t.cbuf
  sink : s.sink = t.sink
  inputs : s.inputs = t.inputs

/-- There are two channels. -/
theorem eq_of_ne_channel : ∀ {a b c : Channel}, a ≠ c → b ≠ c → a = b
  | .ch1, .ch1, _, _, _ => rfl
  | .ch2, .ch2, _, _, _ => rfl
  | .ch1, .ch2, .ch1, ha, _ => absurd rfl ha
  | .ch1, .ch2, .ch2, _, hb => absurd rfl hb
  | .ch2, .ch1, .ch1, _, hb => absurd rfl hb
  | .ch2, .ch1, .ch2, ha, _ => absurd rfl ha

theorem Apart.ach (h : Apart c s t) : s.ach = t.ach := eq_of_ne_channel h.leftGate h.rightGate

theorem Apart.sameText (h : Apart c s t) : SameText (.next s) (.next t) := ⟨h.cbuf, h.sink, h.ach⟩

/-- With the gate closed a sound state holds no control code for the channel in `LAST`. -/
theorem last_ne_of_gate_closed {i : Instr} (hs : s.Inv) (hgate : s.ach ≠ c) (hi : i.channel? = some c)
    (hkind : classify (codes i) = i.wordClass.kind) : s.last ≠ some (codes i) := by
  intro hlast
  obtain ⟨-, hcontrol, hch⟩ := control_facts hi
  exact hgate ((hs.achOfLast _ hlast (hkind.trans hcontrol)).trans hch)

/-- An instruction that finds no repeat and is not NUL does not depend on `LAST`. -/
theorem exec_alike_of_no_repeat {i : Instr} {l m : Option ByteWord} (hi : i ≠ .nul)
    (hl : i.channel? = some s.tch → l ≠ some (codes i)) (hm : i.channel? = some s.tch → m ≠ some (codes i)) :
    exec i { s with last := l } = exec i { s with last := m } := by
  cases hc : i.channel? with
  | some c =>
    by_cases hch : c = s.tch
    · have hi' : i.channel? = some s.tch := hch ▸ hc
      exact (exec_eq_action (s := { s with last := l }) hc ⟨hl hi', hch⟩).trans
        (exec_eq_action (s := { s with last := m }) hc ⟨hm hi', hch⟩).symm
    · exact (exec_eq_dropped (s := { s with last := l }) hc fun ha => hch ha.2).trans
        (exec_eq_dropped (s := { s with last := m }) hc fun ha => hch ha.2).symm
  | none =>
    cases i <;> simp only [Instr.channel?, reduceCtorEq] at hc
    case nul => exact absurd rfl hi
    case chr1 => rfl
    case chr2 => rfl

/-- A null word leaves two such runs as they are. -/
theorem Apart.nullWord (h : Apart c s t) (b : Beat) :
    Apart c { s with tch := b.tch, port := none, consumed := s.consumed + 1 }
      { t with tch := b.tch, port := none, consumed := t.consumed + 1 } :=
  { h with
    left := inv_consumed (inv_latchPins h.left b)
    right := inv_consumed (inv_latchPins h.right b) }

/-- Any other word, with `TCH` at the channel, makes them alike. -/
theorem Apart.onBeat_alike (h : Apart c s t) (hb : IsWord b) (htch : b.tch = c)
    (hi : decodePair b.raw0 b.raw1 ≠ .nul) : EndAlike (onBeat b s) (onBeat b t) := by
  obtain ⟨hrst, hhalt, hvalid⟩ := hb
  subst htch
  have hkind := classify_codes (decodePair b.raw0 b.raw1) (wf_decodeCodes _)
  rw [onBeat_word hrst hhalt hvalid h.leftRunning, onBeat_word hrst hhalt hvalid h.rightRunning]
  have hlast : exec (decodePair b.raw0 b.raw1) { s with tch := b.tch, port := none, consumed := s.consumed + 1 }
      = exec (decodePair b.raw0 b.raw1)
          { s with last := t.last, tch := b.tch, port := none, consumed := s.consumed + 1 } :=
    exec_alike_of_no_repeat (s := { s with tch := b.tch, port := none, consumed := s.consumed + 1 }) hi
      (last_ne_of_gate_closed h.left h.leftGate · hkind) (last_ne_of_gate_closed h.right h.rightGate · hkind)
  have hlike : EndAlike
      (.next { s with last := t.last, tch := b.tch, port := none, consumed := s.consumed + 1 })
      (.next { t with tch := b.tch, port := none, consumed := t.consumed + 1 }) :=
    ⟨h.cfg, rfl, h.ach, h.cbuf, h.inputs, h.leftRunning.trans h.rightRunning.symm, h.sink⟩
  rw [hlast]
  exact exec_alike hlike rfl _

theorem feed_cons_alike (h : EndAlike (onBeat b s) (onBeat b t)) (bs : List Beat) :
    EndAlike (feed (b :: bs) s) (feed (b :: bs) t) := by
  obtain ⟨s', t', hs, ht, h'⟩ | ⟨r, hs, ht⟩ := endAlike_cases h
  · rw [feed_cons_of_next hs, feed_cons_of_next ht]
    exact feed_alike h' bs
  · simp only [feed, hs, ht, EndAlike]

theorem sameText_of_endAlike {o p : StepResult} (h : EndAlike o p) : SameText o p := by
  obtain ⟨s, t, rfl, rfl, -, -, hach, hcbuf, -, -, hsink⟩ | ⟨r, rfl, rfl⟩ := endAlike_cases h
  · exact ⟨hcbuf, hsink, hach⟩
  · rfl

/-- Whatever words for the channel follow, the two runs end in the same text. -/
theorem Apart.feed_sameText (h : Apart c s t) {bs : List Beat} (hbs : ∀ b ∈ bs, IsWord b ∧ b.tch = c) :
    SameText (feed bs s) (feed bs t) := by
  induction bs generalizing s t with
  | nil => exact h.sameText
  | cons b bs ih =>
    obtain ⟨⟨hb, htch⟩, hbs⟩ := List.forall_mem_cons.mp hbs
    by_cases hi : decodePair b.raw0 b.raw1 = .nul
    · have hnull : IsNullWord b := ⟨hb, decodePair_eq_nul_iff.mp hi⟩
      rw [feed_cons_of_next (onBeat_nullWord hnull h.leftRunning),
        feed_cons_of_next (onBeat_nullWord hnull h.rightRunning)]
      exact ih (h.nullWord b) hbs
    · exact sameText_of_endAlike (feed_cons_alike (h.onBeat_alike hb htch hi) bs)

theorem apart_of_untouched {r : State} (hs : s.Inv) (ht : t.Inv) (hrs : Untouched c r s) (hrt : Untouched c r t) :
    Apart c s t where
  left := hs
  right := ht
  leftGate := hrs.ach
  rightGate := hrt.ach
  leftRunning := hrs.running
  rightRunning := hrt.running
  cfg := hrs.cfg.trans hrt.cfg.symm
  cbuf := hrs.cbuf.trans hrt.cbuf.symm
  sink := hrs.sink.trans hrt.sink.symm
  inputs := hrs.inputs.trans hrt.inputs.symm

/-- Settles O47: the two stretches leave runs that differ in `LAST` at most, and what follows does not show it. -/
theorem otherChannelIsInvisible : Obligations.OtherChannelIsInvisible := by
  intro c xs ys zs s hinv hs hgate hxs hys hzs
  obtain ⟨t, ht, hst⟩ := feed_foreign hxs hs hgate
  obtain ⟨u, hu, hsu⟩ := feed_foreign hys hs hgate
  rw [feed_append, feed_append, ht, hu]
  exact (apart_of_untouched (feed_keeps_inv hinv ht) (feed_keeps_inv hinv hu) hst hsu).feed_sameText hzs

end Sys2Proof.Proofs
end

section
/-! The step against the pseudocode of 40_front_end.md R72. -/

namespace Sys2Proof.Proofs

open Sys2Proof.Machine Sys2Proof.Claims Sys2Proof.Reference

/-! What the pseudocode reads is what the machine reads. -/

theorem romEntry_specRom (cfg : Config) (n : BitVec 4) : romEntry cfg.specRom.toList n.toNat = readSpec cfg n := by
  rw [romEntry, specRom_getElem?, Option.getD_some]

theorem romEntry_extRom (cfg : Config) (n : BitVec 6) : romEntry cfg.extRom.toList n.toNat = readExt cfg n := by
  rw [romEntry, extRom_getElem?, Option.getD_some]

theorem basicEntry_toNat (cfg : Config) (c : Code) : basicEntry cfg c.toNat = readBasic cfg c := by
  have hkey : (fun p : Code × CapChar => p.1.toNat == c.toNat) = fun p => decide (p.1 = c) := by
    funext p
    rw [beq_eq_decide, decide_eq_decide, BitVec.toNat_inj]
  unfold basicEntry readBasic
  rw [hkey]
  cases cfg.remap.toList.find? fun p => decide (p.1 = c) with
  | some p => rfl
  | none => exact BitVec.ofNat_toNat 21 c

theorem channelNumber_codeChannel (b0 : Code) : channelNumber (codeChannel b0) = b0.toNat / 8 % 2 := by
  rw [codeChannel_eq]
  split
  next h => exact h.symm
  next h => exact (Nat.mod_two_ne_one.mp h).symm

theorem channelNumber_inj {c d : Channel} : channelNumber c = channelNumber d ↔ c = d := by
  cases c <;> cases d <;> decide

theorem archOf_last_eq_iff {s : State} {w : ByteWord} :
    (archOf s).last = some (w.b0.toNat, w.b1.toNat) ↔ s.last = some w := by
  cases hl : s.last with
  | none => simp [archOf, hl]
  | some v =>
    cases v
    cases w
    simp [archOf, hl, BitVec.toNat_inj]

/-! The branches of the pseudocode, each under the condition of its class. -/

section

variable {cfg : Config} {tch r0 r1 : Nat} {a : Arch}

theorem refStep_null (h0 : r0 % 128 = 0) (h1 : r1 % 128 = 0) : refStep cfg tch r0 r1 a = (a, none) := by
  simp only [refStep, h0, h1, and_self, if_true]

section

variable (hctl : r0 % 128 < 0x20) (hn : ¬(r0 % 128 = 0 ∧ r1 % 128 = 0))
include hctl hn

theorem refStep_dropped (hd : a.last = some (r0 % 128, r1 % 128) ∨ r0 % 128 / 8 % 2 ≠ tch) :
    refStep cfg tch r0 r1 a = (⟨some (r0 % 128, r1 % 128), r0 % 128 / 8 % 2, a.cbuf⟩, none) := by
  simp only [refStep, hn, hctl, hd, if_true, if_false]

variable (ha : ¬(a.last = some (r0 % 128, r1 % 128) ∨ r0 % 128 / 8 % 2 ≠ tch))
include ha

theorem refStep_fln (hk : ClassCond (r0 % 128) (r1 % 128) .fln) :
    refStep cfg tch r0 r1 a
      = (⟨some (r0 % 128, r1 % 128), r0 % 128 / 8 % 2, []⟩, some ⟨a.cbuf, true, false⟩) := by
  obtain ⟨-, hbc, h1⟩ := hk
  simp only [refStep, if_neg hn, if_pos hctl, if_neg ha]
  simp [hbc, h1]

theorem refStep_flr (hk : ClassCond (r0 % 128) (r1 % 128) .flr) :
    refStep cfg tch r0 r1 a
      = (⟨some (r0 % 128, r1 % 128), r0 % 128 / 8 % 2, []⟩, some ⟨a.cbuf, false, true⟩) := by
  obtain ⟨-, hbc, h1⟩ := hk
  simp only [refStep, if_neg hn, if_pos hctl, if_neg ha]
  obtain h1 | h1 | h1 | h1 | h1 := h1 <;> simp [hbc, h1]

theorem refStep_spc (hk : ClassCond (r0 % 128) (r1 % 128) .spc) :
    refStep cfg tch r0 r1 a = (⟨some (r0 % 128, r1 % 128), r0 % 128 / 8 % 2,
      a.cbuf ++ [romEntry cfg.specRom.toList (r1 % 128 - 0x30)]⟩, none) := by
  obtain ⟨-, hbc, hlo, hhi⟩ := hk
  simp only [refStep, if_neg hn, if_pos hctl, if_neg ha]
  simp [hbc, hlo, hhi]

theorem refStep_ext (hk : ClassCond (r0 % 128) (r1 % 128) .ext) :
    refStep cfg tch r0 r1 a = (⟨some (r0 % 128, r1 % 128), r0 % 128 / 8 % 2,
      a.cbuf.dropLast
        ++ [romEntry cfg.extRom.toList ((r0 % 128 % 8 - 2) * 0x20 + (r1 % 128 - 0x20))]⟩, none) := by
  obtain ⟨-, hbc, hlo, hhi⟩ := hk
  simp only [refStep, if_neg hn, if_pos hctl, if_neg ha, List.dropLast_eq_take]
  obtain hbc | hbc := hbc <;> simp [hbc, hlo, hhi]

theorem refStep_tab (hk : ClassCond (r0 % 128) (r1 % 128) .tab) :
    refStep cfg tch r0 r1 a = (⟨some (r0 % 128, r1 % 128), r0 % 128 / 8 % 2,
      a.cbuf ++ List.replicate (r1 % 128 - 0x20) 0x20⟩, none) := by
  obtain ⟨-, hbc, h1⟩ := hk
  simp only [refStep, if_neg hn, if_pos hctl, if_neg ha]
  simp [hbc, h1]

theorem refStep_pac (hk : ClassCond (r0 % 128) (r1 % 128) .pac) :
    refStep cfg tch r0 r1 a = (⟨some (r0 % 128, r1 % 128), r0 % 128 / 8 % 2,
      a.cbuf ++ [0x0A] ++ List.replicate (indent (r1 % 128)) 0x20⟩, none) := by
  obtain ⟨-, h1⟩ := hk
  have hlt : ¬ r1 % 128 < 0x40 := Nat.not_lt.mpr h1
  have hne : ∀ n < 0x40, r1 % 128 ≠ n := fun n hn e => hlt (e ▸ hn)
  simp only [refStep, if_neg hn, if_pos hctl, if_neg ha]
  simp [hlt, hne, h1]

theorem refStep_mid (hk : ClassCond (r0 % 128) (r1 % 128) .mid) :
    refStep cfg tch r0 r1 a
      = (⟨some (r0 % 128, r1 % 128), r0 % 128 / 8 % 2, a.cbuf ++ [0x20]⟩, none) := by
  obtain ⟨-, -, hhi, hflush, hspc, hext, htab⟩ := hk
  have hfln : ¬(r0 % 128 % 8 = 4 ∧ r1 % 128 = 0x2F) := fun h => hflush ⟨h.1, by simp [h.2]⟩
  have hflr : ¬(r0 % 128 % 8 = 4 ∧
      (r1 % 128 = 0x2D ∨ r1 % 128 = 0x25 ∨ r1 % 128 = 0x26 ∨ r1 % 128 = 0x27 ∨ r1 % 128 = 0x2C)) :=
    fun h => hflush ⟨h.1, by obtain ⟨-, h | h | h | h | h⟩ := h <;> simp [h]⟩
  have hspc' : ¬(r0 % 128 % 8 = 1 ∧ 0x30 ≤ r1 % 128 ∧ r1 % 128 < 0x40) := fun h => hspc ⟨h.1, h.2.1⟩
  have hext' : ¬((r0 % 128 % 8 = 2 ∨ r0 % 128 % 8 = 3) ∧ 0x20 ≤ r1 % 128 ∧ r1 % 128 < 0x40) :=
    fun h => hext ⟨h.1, h.2.1⟩
  have htab' : ¬(r0 % 128 % 8 = 7 ∧ (r1 % 128 = 0x21 ∨ r1 % 128 = 0x22 ∨ r1 % 128 = 0x23)) :=
    fun h => htab ⟨h.1, by simpa using h.2⟩
  simp only [refStep, if_neg hn, if_pos hctl, if_neg ha, if_neg hfln, if_neg hflr, if_neg hspc', if_neg hext',
    if_neg htab', if_neg (Nat.not_le.mpr hhi)]

end

theorem refStep_displayable (h : 0x20 ≤ r0 % 128) :
    refStep cfg tch r0 r1 a = (⟨some (r0 % 128, r1 % 128), a.ach, a.cbuf ++
      (if a.ach = tch then
        basicEntry cfg (r0 % 128) :: (if r1 % 128 ≥ 0x20 then [basicEntry cfg (r1 % 128)] else [])
      else [])⟩, none) := by
  simp (disch := omega) only [refStep, if_neg]

end

/-! The machine's instruction is the branch of its class. -/

section

variable {r0 r1 : Byte} {c : Channel} {s t : State}

theorem archOf_last_of_decodePair (h : t.last = some (codes (decodePair r0 r1))) :
    (archOf t).last = some (code0 r0, code1 r1) := by
  rw [codes_of_decodePair_eq rfl] at h
  rw [← stripPair_b0_toNat r0 r1, ← stripPair_b1_toNat r0 r1]
  exact archOf_last_eq_iff.mpr h

theorem archOf_eq (h : t.last = some (codes (decodePair r0 r1))) :
    archOf t = ⟨some (code0 r0, code1 r1), channelNumber t.ach, t.cbuf⟩ := by
  rw [← archOf_last_of_decodePair h]
  rfl

/-- A control code's bounds and channel as numbers. -/
theorem control_numbers (hc : (decodePair r0 r1).channel? = some c) :
    code0 r0 < 0x20 ∧ ¬(code0 r0 = 0 ∧ code1 r1 = 0) ∧ channelNumber c = code0 r0 / 8 % 2 := by
  obtain ⟨-, hkind, hch⟩ := control_facts hc
  have hctl : classify (stripPair r0 r1) = .control := (kind_decodeCodes _).symm.trans hkind
  rw [classify_eq_control_iff, stripPair_b0_toNat, stripPair_b1_toNat] at hctl
  rw [codes_of_decodePair_eq rfl] at hch
  rw [← hch, channelNumber_codeChannel, stripPair_b0_toNat]
  exact ⟨hctl.1, hctl.2, rfl⟩

/-- The pseudocode drops a control code exactly when the machine does. -/
theorem drops_iff (hc : (decodePair r0 r1).channel? = some c) :
    (archOf s).last = some (code0 r0, code1 r1) ∨ code0 r0 / 8 % 2 ≠ channelNumber s.tch ↔
      ¬ Acts (codes (decodePair r0 r1)) c s := by
  obtain ⟨-, -, hch⟩ := control_numbers hc
  rw [← hch, ne_eq, channelNumber_inj, codes_of_decodePair_eq rfl, ← stripPair_b0_toNat r0 r1,
    ← stripPair_b1_toNat r0 r1, archOf_last_eq_iff, Acts, not_and_or, not_ne_iff]

/-- What the machine's state is to the pseudocode after a control code. -/
theorem archOf_of_control (hc : (decodePair r0 r1).channel? = some c)
    (hlast : t.last = some (codes (decodePair r0 r1))) (hach : t.ach = c) :
    archOf t = ⟨some (code0 r0, code1 r1), code0 r0 / 8 % 2, t.cbuf⟩ := by
  obtain ⟨-, -, hch⟩ := control_numbers hc
  rw [archOf_eq hlast, hach, hch]

theorem refStep_text (cfg : Config) (tch : Nat) (a : Arch) (hc : (decodePair r0 r1).channel? = some c)
    (h1 : (decodePair r0 r1).wordClass ≠ .fln) (h2 : (decodePair r0 r1).wordClass ≠ .flr)
    (ha : ¬(a.last = some (code0 r0, code1 r1) ∨ code0 r0 / 8 % 2 ≠ tch)) :
    refStep cfg tch r0.toNat r1.toNat a = (⟨some (code0 r0, code1 r1), code0 r0 / 8 % 2,
      keptOf (decodePair r0 r1) a.cbuf ++ textOf cfg (decodePair r0 r1)⟩, none) := by
  obtain ⟨hctl, hn, -⟩ := control_numbers hc
  have hcond := classCond_decodePair r0 r1
  obtain ⟨-, hkind, -⟩ := control_facts hc
  cases hk : (decodePair r0 r1).wordClass <;> rw [hk] at hcond hkind <;>
    simp only [WordClass.kind, reduceCtorEq] at hkind
  case fln => exact absurd hk h1
  case flr => exact absurd hk h2
  case spc =>
    obtain ⟨x, c, n, hi⟩ := wordClass_eq_spc_iff.mp hk
    rw [refStep_spc hctl hn ha hcond, hi, textOf, ← romEntry_specRom, (specIndex_of_decodePair hi).1]
    rfl
  case ext =>
    obtain ⟨x, c, k, j, hi⟩ := wordClass_eq_ext_iff.mp hk
    rw [refStep_ext hctl hn ha hcond, hi, textOf, ← romEntry_extRom, (extIndex_of_decodePair hi).1]
    rfl
  case tab =>
    obtain ⟨x, c, p, hp, hi⟩ := exists_mem_tabForms hk
    obtain ⟨-, -, hcount, hkept, htext⟩ := tab_of_mem_tabForms hp
    rw [refStep_tab hctl hn ha hcond, hi, htext, hkept, hcount, ← code1_of_decodePair_eq hi]
    rfl
  case pac =>
    obtain ⟨x, c, bc, h5, h4, k, u, hi⟩ := wordClass_eq_pac_iff.mp hk
    rw [refStep_pac hctl hn ha hcond, hi, textOf, preSpaces_eq_nibbles, ← code1_of_decodePair_eq hi,
      List.append_assoc]
    rfl
  case mid =>
    obtain ⟨x, c, bc, d, hi⟩ := wordClass_eq_mid_iff.mp hk
    rw [refStep_mid hctl hn ha hcond, hi]
    rfl

theorem shown_eq_textOf (cfg : Config) (hk : (decodePair r0 r1).wordClass.kind = .displayable) :
    basicEntry cfg (code0 r0) :: (if code1 r1 ≥ 0x20 then [basicEntry cfg (code1 r1)] else [])
      = textOf cfg (decodePair r0 r1) := by
  have hcond := classCond_decodePair r0 r1
  cases hw : (decodePair r0 r1).wordClass <;> rw [hw] at hcond hk <;> simp only [WordClass.kind, reduceCtorEq] at hk
  case chr1 =>
    obtain ⟨a, d, hi⟩ := wordClass_eq_chr1_iff.mp hw
    have h0 : code0 r0 = a.toNat := code0_of_decodePair_eq hi
    rw [if_neg (Nat.not_le.mpr hcond.2), hi, h0, basicEntry_toNat]
    rfl
  case chr2 =>
    obtain ⟨a, b, hi⟩ := wordClass_eq_chr2_iff.mp hw
    have h0 : code0 r0 = a.toNat := code0_of_decodePair_eq hi
    have h1 : code1 r1 = b.toNat := code1_of_decodePair_eq hi
    rw [if_pos hcond.2, hi, h0, h1, basicEntry_toNat, basicEntry_toNat]
    rfl

theorem refStep_of_displayable (s : State) (hk : (decodePair r0 r1).wordClass.kind = .displayable) :
    refStep s.cfg (channelNumber s.tch) r0.toNat r1.toNat (archOf s)
      = (⟨some (code0 r0, code1 r1), channelNumber s.ach, s.cbuf ++
          if s.ach = s.tch then textOf s.cfg (decodePair r0 r1) else []⟩, none) := by
  have h0 : 0x20 ≤ code0 r0 := by
    rw [← stripPair_b0_toNat r0 r1]
    exact classify_eq_displayable_iff.mp ((kind_decodeCodes _).symm.trans hk)
  have hgate : ((archOf s).ach = channelNumber s.tch) = (s.ach = s.tch) := propext channelNumber_inj
  rw [refStep_displayable h0, ← shown_eq_textOf s.cfg hk]
  simp only [hgate]
  rfl

/-- What an instruction does from a state with an idle port is what the pseudocode does. -/
theorem refStep_of_ran (hport : s.port = none) (h : Ran (decodePair r0 r1) s t) :
    (archOf t, t.port) = refStep s.cfg (channelNumber s.tch) r0.toNat r1.toNat (archOf s) := by
  cases h
  case null h =>
    obtain ⟨h0, h1⟩ := decodePair_eq_nul_iff.mp h
    rw [refStep_null h0 h1, hport]
  case dropped c hc h =>
    obtain ⟨hctl, hn, -⟩ := control_numbers hc
    rw [refStep_dropped hctl hn ((drops_iff hc).mpr h), archOf_of_control hc rfl rfl, hport]
    rfl
  case flushed c nl hc h hk =>
    obtain ⟨hctl, hn, -⟩ := control_numbers hc
    have ha := mt (drops_iff hc).mp (not_not_intro h)
    have hcond := classCond_decodePair r0 r1
    rw [hk] at hcond
    rw [archOf_of_control hc rfl rfl]
    cases nl with
    | true => exact (refStep_fln hctl hn ha hcond).symm
    | false => exact (refStep_flr hctl hn ha hcond).symm
  case text c hc h h1 h2 _ =>
    rw [refStep_text _ _ _ hc h1 h2 (mt (drops_iff hc).mp (not_not_intro h)), archOf_of_control hc rfl rfl, hport]
    rfl
  case shown hk _ hg _ =>
    rw [refStep_of_displayable s hk, if_pos hg, hport, archOf_eq rfl]
  case hidden hk _ hg =>
    rw [refStep_of_displayable s hk, if_neg hg, List.append_nil, hport, archOf_eq rfl]

theorem sink_eq_append_port {i : Instr} (hport : s.port = none) (h : Ran i s t) : t.sink = s.sink ++ t.port.toList := by
  cases h
  case flushed => rfl
  all_goals simp [hport]

end

/-- Settles O18: a running block with the unbounded buffer has a next state, which is one of the ways its instruction can
run, and each of them is a branch of the pseudocode. -/
theorem stepIsThePseudocode : Obligations.StepIsThePseudocode := by
  intro s b rest hq hb hs hcap
  obtain ⟨t, ht⟩ := stepIsTotalButForTwoRefusals.2 s hs hcap
  have hexec := stepRunsTheDecodedInstruction s b rest hq hb hs
  have hran := exec_next_cases (hexec.symm.trans ht)
  obtain ⟨hcfg, htch, hinputs, hhalted, hconsumed⟩ := host_of_ran hran
  have hsink := sink_eq_append_port rfl hran
  exact ⟨t, ht, refStep_of_ran rfl hran, hsink, hcfg, htch, hinputs, hhalted.trans hs,
    hconsumed⟩

end Sys2Proof.Proofs
end
